-- ==== Sys2Proof/Word.lean ====
section
/-! DEFINITION. The word types of checksum_calculator: 8-bit characters (30_encoding.md R87) and the 16-bit CMD and RESP
words (R80). -/

namespace Sys2Proof

/-- One character or one byte of a word (CHAR_W = 8, 00_scope.md R7, 30_encoding.md R87). -/
abbrev Byte := BitVec 8

/-- A CMD or RESP word; bit 0 is the least significant (00_scope.md R8, 30_encoding.md R80). -/
abbrev Word := BitVec 16

end Sys2Proof
end

