-- ==== Sys2Proof/Config.lean ====
section
/-! DEFINITION. The block's parameters (00_scope.md R7): the fixed sizes, the types of the four constant tables, and the
one parameter the spec leaves wholly open. The tables' default CONTENTS stand in Sys2Proof/Machine/Roms.lean. -/

namespace Sys2Proof

/-- N_PAYLOAD: payload characters (R7). -/
abbrev nPayload : Nat := 14
/-- N_ID: payload plus check digit (R7). -/
abbrev nId : Nat := 15
/-- RAW_MAX: bytes of the request buffer (R7, 10_state.md R26). -/
abbrev rawMax : Nat := 255
/-- N_V: index values of the REVERSE table (R7, 43_modular_adder_tree.md R177). -/
abbrev nV : Nat := 36

/-- A character's vector: m0, m1 in {0,1} and m2, m3 in {0,1,2} (41_vector_lookup.md R131, R138 (b)). -/
structure CharVec where
  m0 : Fin 2
  m1 : Fin 2
  m2 : Fin 3
  m3 : Fin 3
deriving DecidableEq, Repr

/-- A row of P1: four coefficients [0]..[3] in {0,1} (10_state.md R29, 42_weighted_accumulator.md R151). -/
structure P1Row where
  k0 : Fin 2
  k1 : Fin 2
  k2 : Fin 2
  k3 : Fin 2
deriving DecidableEq, Repr

/-- A row of P2: four coefficients [0]..[3] in {0,1,2} (10_state.md R29, 42_weighted_accumulator.md R151). -/
structure P2Row where
  k0 : Fin 3
  k1 : Fin 3
  k2 : Fin 3
  k3 : Fin 3
deriving DecidableEq, Repr

/-- The four constant tables (10_state.md R28-R30). They are parameters of the block (92_eei_decisions.md D16), so the state
holds them and no step writes them (20_memory.md R57, R60). -/
structure Roms where
  alphabet : Vector (Option CharVec) 256
  p1       : Vector P1Row 14
  p2       : Vector P2Row 14
  reverse  : Vector Byte 36
deriving DecidableEq, Repr

/-- IFACE_BASE: where a platform places CMD, RAW, RESP and RESP_VALID in a host address space. The spec leaves it OPEN
(20_memory.md R56, 93_implementation_defined.md I12), so it has no body here; nothing in the model depends on it (log 12). -/
opaque Config.ifaceBase : Nat

end Sys2Proof
end

