-- ==== Sys2Proof/Machine/Roms.lean ====
section
/-! DEFINITION. The default contents of the four ROMs (41_vector_lookup.md R132, R133; 42_weighted_accumulator.md R150;
43_modular_adder_tree.md R178), and one read of each (20_memory.md R50, R55). PRESUMED: the spec itself supplies these
contents from general knowledge (93_implementation_defined.md GK3-GK5); log 5, unsafe for a block with other tables. -/

namespace Sys2Proof.Machine

/-- ALPHABET entries of '0'..'9', in order (R132). -/
def alphabetDigits : List (Option CharVec) :=
  [some ⟨0, 0, 0, 0⟩, some ⟨0, 0, 0, 1⟩, some ⟨0, 0, 0, 2⟩, some ⟨0, 0, 1, 0⟩, some ⟨0, 0, 1, 1⟩,
   some ⟨0, 0, 1, 2⟩, some ⟨0, 0, 2, 0⟩, some ⟨0, 0, 2, 1⟩, some ⟨0, 0, 2, 2⟩, some ⟨0, 1, 0, 0⟩]

/-- ALPHABET entries of 'A'..'Z', in order (R132). -/
def alphabetLetters : List (Option CharVec) :=
  [some ⟨0, 1, 0, 1⟩, some ⟨0, 1, 0, 2⟩, some ⟨0, 1, 1, 0⟩, some ⟨0, 1, 1, 1⟩, some ⟨0, 1, 1, 2⟩,
   some ⟨0, 1, 2, 0⟩, some ⟨0, 1, 2, 1⟩, some ⟨0, 1, 2, 2⟩, some ⟨1, 0, 0, 0⟩, some ⟨1, 0, 0, 1⟩,
   some ⟨1, 0, 0, 2⟩, some ⟨1, 0, 1, 0⟩, some ⟨1, 0, 1, 1⟩, some ⟨1, 0, 1, 2⟩, some ⟨1, 0, 2, 0⟩,
   some ⟨1, 0, 2, 1⟩, some ⟨1, 0, 2, 2⟩, some ⟨1, 1, 0, 0⟩, some ⟨1, 1, 0, 1⟩, some ⟨1, 1, 0, 2⟩,
   some ⟨1, 1, 1, 0⟩, some ⟨1, 1, 1, 1⟩, some ⟨1, 1, 1, 2⟩, some ⟨1, 1, 2, 0⟩, some ⟨1, 1, 2, 1⟩,
   some ⟨1, 1, 2, 2⟩]

/-- ALPHABET in byte order: '0' is entry 0x30 and 'A' is entry 0x41; the 220 other bytes have none (R133). -/
def alphabetEntries : List (Option CharVec) :=
  List.replicate 48 none ++ (alphabetDigits ++ (List.replicate 7 none ++ (alphabetLetters ++ List.replicate 165 none)))

/-- The ALPHABET ROM's default contents (R132, R133). -/
def defaultAlphabet : Vector (Option CharVec) 256 := ⟨alphabetEntries.toArray, by decide +kernel⟩

/-- The P1 ROM's default contents, rows i = 0..13 (R150). -/
def defaultP1 : Vector P1Row 14 :=
  #v[⟨0, 1, 1, 1⟩, ⟨1, 1, 1, 0⟩, ⟨1, 0, 0, 1⟩, ⟨0, 1, 1, 1⟩,
    ⟨1, 1, 1, 0⟩, ⟨1, 0, 0, 1⟩, ⟨0, 1, 1, 1⟩, ⟨1, 1, 1, 0⟩,
    ⟨1, 0, 0, 1⟩, ⟨0, 1, 1, 1⟩, ⟨1, 1, 1, 0⟩, ⟨1, 0, 0, 1⟩,
    ⟨0, 1, 1, 1⟩, ⟨1, 1, 1, 0⟩]

/-- The P2 ROM's default contents, rows i = 0..13 (R150). -/
def defaultP2 : Vector P2Row 14 :=
  #v[⟨0, 1, 1, 2⟩, ⟨1, 2, 2, 2⟩, ⟨2, 2, 2, 0⟩, ⟨2, 0, 0, 2⟩,
    ⟨0, 2, 2, 1⟩, ⟨2, 1, 1, 1⟩, ⟨1, 1, 1, 0⟩, ⟨1, 0, 0, 1⟩,
    ⟨0, 1, 1, 2⟩, ⟨1, 2, 2, 2⟩, ⟨2, 2, 2, 0⟩, ⟨2, 0, 0, 2⟩,
    ⟨0, 2, 2, 1⟩, ⟨2, 1, 1, 1⟩]

/-- The REVERSE ROM's default contents, v = 0..35 (R178). -/
def defaultReverse : Vector Byte 36 :=
  #v[0x30#8, 0x49#8, 0x39#8, 0x52#8, 0x33#8, 0x4C#8, 0x43#8, 0x55#8, 0x36#8,
    0x4F#8, 0x46#8, 0x58#8, 0x31#8, 0x4A#8, 0x41#8, 0x53#8, 0x34#8, 0x4D#8,
    0x44#8, 0x56#8, 0x37#8, 0x50#8, 0x47#8, 0x59#8, 0x32#8, 0x4B#8, 0x42#8,
    0x54#8, 0x35#8, 0x4E#8, 0x45#8, 0x57#8, 0x38#8, 0x51#8, 0x48#8, 0x5A#8]

/-- The default instance of the tables (92_eei_decisions.md D16). -/
def defaultRoms : Roms :=
  { alphabet := defaultAlphabet, p1 := defaultP1, p2 := defaultP2, reverse := defaultReverse }

/-- ALPHABET(b): one whole entry; every byte has one, so no index falls out of range (20_memory.md R54, R55). -/
def alphabetAt (roms : Roms) (b : Byte) : Option CharVec := roms.alphabet[b.toNat]'b.isLt

/-- REVERSE[v] (43_modular_adder_tree.md R180). -/
def reverseAt (roms : Roms) (v : Fin nV) : Byte := roms.reverse[v]

end Sys2Proof.Machine
end

