-- ==== Sys2Proof/Machine/State.lean ====
section
/-! DEFINITION. The block's state (10_state.md R20: "exactly the following elements"), the reasons a step or a host move can
stop (60_exceptions.md R233), and the state after reset (70_reset_and_hazards.md R260). -/

namespace Sys2Proof.Machine

/-- The request buffer RAW as cells (position, byte): positions strictly rising, all below RAW_MAX, and no byte equal to
`rawUnlisted` (10_state.md R26; log 3). -/
abbrev RawBuffer := List Host.Cell

/-- What a RAW position that nothing has written reads as. DESIGN CHOICE, unsafe: the spec leaves the reset value of RAW
unspecified (R26); log 3. -/
def rawUnlisted : Byte := 0x00#8

/-- Every element of R20, and the model's own `rawWritten`. -/
structure State where
  /-- CMD, the host-written command register (R25). -/
  cmd        : Word
  /-- RAW, the request buffer (R26). -/
  raw        : RawBuffer
  /-- The model's own: RAW positions the host has written for the request to come (30_encoding.md R85 (2); log 4). -/
  rawWritten : Vector Bool rawMax
  /-- RESP, the response register (R24). -/
  resp       : Word
  /-- RESP_VALID, the response-valid flag (R23). -/
  respValid  : Bool
  /-- The constant tables (R28, R29, R30). -/
  roms       : Roms
deriving DecidableEq, Repr

/-- Model-level faults (60_exceptions.md R233). -/
inductive Fault where
  /-- READ_BEFORE_RESPONSE: raised by a host read of RESP while RESP_VALID = 0 (10_state.md R23), never by a step. Safe: the
  hardware returns some value where the model stops the read. -/
  | readBeforeResponse
  /-- INTERNAL_INVARIANT: raised by a remap whose input is out of domain (43_modular_adder_tree.md R176), and by a REVERSE
  index out of range. Safe, and unreachable. -/
  | internalInvariant
deriving DecidableEq, Repr

/-- Which condition of a well-formed request fails (30_encoding.md R85). -/
inductive RequestDefect where
  /-- CMD.RSVD is not 0. -/
  | reservedBits
  /-- RAW[0..LEN-1] is not written for this request. -/
  | rawNotWritten
deriving DecidableEq, Repr

/-- Why the model gives no meaning. -/
inductive Refusal where
  /-- An instruction of the table with no meaning in the model. Safe. Raised by no arm: both instructions have one. -/
  | notModelled (mnemonic : String)
  /-- REFUSED_REQUEST: the issue of an ill-formed request (60_exceptions.md R233, 30_encoding.md R85). Safe. Raised by step. -/
  | refusedRequest (why : RequestDefect)
  /-- A host write the interface cannot carry: more than RAW_MAX bytes, or a position above RAW[254] (30_encoding.md R89,
  93_implementation_defined.md I11; log 10). Safe. Raised by the host's write of RAW. -/
  | notPresentable
deriving DecidableEq, Repr

/-- No RAW position is written for a request yet (log 4). -/
def noneWritten : Vector Bool rawMax := Vector.replicate rawMax false

/-- The machine right after its first reset: RESP_VALID = 0 (R260) and the ROMs at their contents (R262). CMD, RAW and RESP
are unspecified in the spec; DESIGN CHOICE, unsafe: they are 0 here (log 1, 2, 3). -/
def State.reset : State where
  cmd := 0x0000#16
  raw := []
  rawWritten := noneWritten
  resp := 0x0000#16
  respValid := false
  roms := defaultRoms

end Sys2Proof.Machine
end

