-- ==== Sys2Proof/Machine/VectorLookup.lean ====
section
/-! DEFINITION. 4bit_vector_lookup_engine: LOOKUP and FLATTEN (41_vector_lookup.md R134, R135). -/

namespace Sys2Proof.Machine

/-- LOOKUP: the vectors of the payload bytes in order, or none at the first byte with no entry, for which the operation raises
INVALID_CHARACTER (R134). There is no zero-vector fallback. -/
def lookup (roms : Roms) : List Byte → Option (List CharVec)
  | [] => some []
  | b :: bs =>
    match alphabetAt roms b with
    | none => none
    | some e =>
      match lookup roms bs with
      | none => none
      | some es => some (e :: es)

/-- FLATTEN: position i's vector at D[4i..4i+3] (R135). -/
def flatten : List CharVec → List Nat
  | [] => []
  | e :: es => e.m0.val :: e.m1.val :: e.m2.val :: e.m3.val :: flatten es

/-- D[k]. Every index used is below 56, the length of D (R7, R135). -/
def dAt (d : List Nat) (k : Nat) : Nat := d.getD k 0

end Sys2Proof.Machine
end

