-- ==== Sys2Proof/Machine/WeightedAccumulator.lean ====
section
/-! DEFINITION. weighted_bit_accumulator: the four weighted sums (42_weighted_accumulator.md R152-R155). The accumulators are
naturals and never wrap (R156). -/

namespace Sys2Proof.Machine

/-- Position i's term of c1 (R152). -/
def termC1 (roms : Roms) (d : List Nat) (i : Fin 14) : Nat :=
  dAt d (4 * i.val) * roms.p1[i].k0.val + dAt d (4 * i.val + 1) * roms.p1[i].k2.val
/-- Position i's term of c2 (R153). -/
def termC2 (roms : Roms) (d : List Nat) (i : Fin 14) : Nat :=
  dAt d (4 * i.val) * roms.p1[i].k1.val + dAt d (4 * i.val + 1) * roms.p1[i].k3.val
/-- Position i's term of c3 (R154). -/
def termC3 (roms : Roms) (d : List Nat) (i : Fin 14) : Nat :=
  dAt d (4 * i.val + 2) * roms.p2[i].k0.val + dAt d (4 * i.val + 3) * roms.p2[i].k2.val
/-- Position i's term of c4 (R155). -/
def termC4 (roms : Roms) (d : List Nat) (i : Fin 14) : Nat :=
  dAt d (4 * i.val + 2) * roms.p2[i].k1.val + dAt d (4 * i.val + 3) * roms.p2[i].k3.val

/-- c <- 0; for i in 0 .. 13: c <- c + term i. -/
def accumulate (term : Fin 14 → Nat) : Nat := (List.finRange 14).foldl (fun c i => c + term i) 0

/-- ACC_C1 (R152). -/
def accC1 (roms : Roms) (d : List Nat) : Nat := accumulate (termC1 roms d)
/-- ACC_C2 (R153). -/
def accC2 (roms : Roms) (d : List Nat) : Nat := accumulate (termC2 roms d)
/-- ACC_C3 (R154). -/
def accC3 (roms : Roms) (d : List Nat) : Nat := accumulate (termC3 roms d)
/-- ACC_C4 (R155). -/
def accC4 (roms : Roms) (d : List Nat) : Nat := accumulate (termC4 roms d)

end Sys2Proof.Machine
end

