-- ==== Sys2Proof/Machine/AdderTree.lean ====
section
/-! DEFINITION. modular_adder_tree: reductions, remaps, index packing and reverse lookup (43_modular_adder_tree.md R170-R180). -/

namespace Sys2Proof.Machine

/-- REDUCE_Q1 (R170). -/
def reduceQ1 (c1 : Nat) : Nat := c1 % 2
/-- REDUCE_Q2 (R171). -/
def reduceQ2 (c2 : Nat) : Nat := c2 % 2

/-- The table f of R172. An input outside {0,1,2} is the fault INTERNAL_INVARIANT, never a value (R176). -/
def remapF : Nat → Except Fault Nat
  | 0 => .ok 0
  | 1 => .ok 2
  | 2 => .ok 1
  | _ => .error .internalInvariant

/-- The table g of R174. An input outside {0,..,4} is the fault INTERNAL_INVARIANT, never a value (R176). -/
def remapG : Nat → Except Fault Nat
  | 0 => .ok 0
  | 1 => .ok 2
  | 2 => .ok 1
  | 3 => .ok 0
  | 4 => .ok 2
  | _ => .error .internalInvariant

/-- SUM_S (R173). -/
def sumS (c3 r1 : Nat) : Nat := c3 % 3 + r1

/-- V_R2_WEIGHT (00_scope.md R7, 90_conflicts.md C3). -/
def vR2Weight : Nat := 12

/-- PACK_V (R177). -/
def packV (q1 q2 r1 r2 : Nat) : Nat := q1 + 2 * q2 + 4 * r1 + vR2Weight * r2

/-- LOOKUP_CHK: REVERSE[v] (R180). A v outside 0..35 cannot occur (R177); it would be INTERNAL_INVARIANT too (log 18). -/
def lookupChk (roms : Roms) (v : Nat) : Except Fault Byte :=
  if h : v < nV then .ok (reverseAt roms ⟨v, h⟩) else .error .internalInvariant

/-- The transient values of one operation's accumulator and adder tree (10_state.md R31). They live inside the operation and
are no part of State. -/
structure Datapath where
  c1 : Nat
  c2 : Nat
  c3 : Nat
  c4 : Nat
  q1 : Nat
  q2 : Nat
  r1 : Nat
  s  : Nat
  r2 : Nat
  v  : Nat
  chk : Byte
deriving DecidableEq, Repr

/-- Stages ACC_C1 to LOOKUP_CHK on the D buffer, in the order of 44_operations.md's CHECKDIGIT (R152-R155, R170-R180). -/
def datapath (roms : Roms) (d : List Nat) : Except Fault Datapath :=
  let c1 := accC1 roms d
  let c2 := accC2 roms d
  let c3 := accC3 roms d
  let c4 := accC4 roms d
  let q1 := reduceQ1 c1
  let q2 := reduceQ2 c2
  match remapF (c4 % 3) with
  | .error f => .error f
  | .ok r1 =>
    let s := sumS c3 r1
    match remapG s with
    | .error f => .error f
    | .ok r2 =>
      let v := packV q1 q2 r1 r2
      match lookupChk roms v with
      | .error f => .error f
      | .ok chk =>
        .ok { c1 := c1, c2 := c2, c3 := c3, c4 := c4, q1 := q1, q2 := q2, r1 := r1, s := s, r2 := r2, v := v, chk := chk }

end Sys2Proof.Machine
end

