-- ==== Sys2Proof/Syntax.lean ====
section
/-! DEFINITION. The two requests of opcode_table.json, and the fields of a response (30_encoding.md R80-R84). -/

namespace Sys2Proof

/-- The block's two operations (00_scope.md R3, 30_encoding.md R84). The operand is LEN, the number of raw bytes in
RAW[0..LEN-1] (R81, R86). -/
inductive Instr where
  | compute (len : Byte)   -- COMPUTE, 44_operations.md R200
  | verify (len : Byte)    -- VERIFY, 44_operations.md R201
deriving DecidableEq, Repr

/-- The operand LEN of a request (30_encoding.md R81). -/
def Instr.len : Instr → Byte
  | .compute len => len
  | .verify len => len

/-- The result codes of STATUS (30_encoding.md R83). The fourth code, 0b11, is reserved and is no value of this type. -/
inductive Status where
  | ok                 -- 0b00
  | invalidLength      -- 0b01
  | invalidCharacter   -- 0b10
deriving DecidableEq, Repr

/-- The fields of a RESP word that can vary (30_encoding.md R82). RSVD[7:3] is hardwired 0 and has no field. -/
structure RespFields where
  status  : Status
  matched : Bool
  char    : Byte
deriving DecidableEq, Repr

end Sys2Proof
end

