-- ==== Sys2Proof/Machine/Flags.lean ====
section
/-! DEFINITION. The RESP word: its fields, the one function that packs them, the reader that takes them apart, and how each
field's value is computed (30_encoding.md R82, R83; 44_operations.md R200, R201, R204, R205). -/

namespace Sys2Proof.Machine

/-- RESP.STATUS = RESP[1:0] (R82). -/
def respStatus (w : Word) : BitVec 2 := w.extractLsb' 0 2
/-- RESP.MATCH = RESP[2] (R82). -/
def respMatch (w : Word) : BitVec 1 := w.extractLsb' 2 1
/-- RESP.RSVD = RESP[7:3], hardwired 0 (R82, 10_state.md R24). -/
def respRsvd (w : Word) : BitVec 5 := w.extractLsb' 3 5
/-- RESP.CHAR = RESP[15:8] (R82). -/
def respChar (w : Word) : Byte := w.extractLsb' 8 8

/-- The STATUS codes of R83; 0b11 is never produced. -/
def statusCode : Status → BitVec 2
  | .ok => 0b00#2
  | .invalidLength => 0b01#2
  | .invalidCharacter => 0b10#2

/-- The RESP word of its fields, RSVD = 0 (R82). -/
def encodeResp (f : RespFields) : Word :=
  f.char ++ (0#5 ++ (BitVec.ofBool f.matched ++ statusCode f.status))

/-- A host's reader of STATUS; it refuses the reserved code 0b11 (93_implementation_defined.md I5). -/
def statusOfCode (c : BitVec 2) : Option Status :=
  if c = 0b00#2 then some .ok
  else if c = 0b01#2 then some .invalidLength
  else if c = 0b10#2 then some .invalidCharacter
  else none

/-- A host's reader of RESP (I5). It also refuses RSVD other than 0, which the block never produces (R88; log 22). -/
def decodeResp (w : Word) : Option RespFields :=
  if respRsvd w = 0#5 then
    match statusOfCode (respStatus w) with
    | some st => some { status := st, matched := respMatch w == 1#1, char := respChar w }
    | none => none
  else none

/-- What RESP returns for a stored word: RSVD[7:3] reads as 0 whatever is stored (10_state.md R24; log 13). -/
def hardwireRsvd (w : Word) : Word := w &&& 0xFF07#16

/-- COMPUTE's success: STATUS = OK, CHAR = CHK, MATCH = 0 (R200). -/
def okChar (chk : Byte) : RespFields := { status := .ok, matched := false, char := chk }

/-- VERIFY's success: STATUS = OK, CHAR = 0x00, MATCH = MATCHV (R201). -/
def okMatch (matchv : Bool) : RespFields := { status := .ok, matched := matchv, char := 0x00#8 }

/-- MATCHV: byte equality of CHK and T (R205). -/
def matchFlag (chk t : Byte) : Bool := chk == t

/-- The block's two errors (60_exceptions.md R220). -/
inductive ErrorCode where
  | invalidLength
  | invalidCharacter
deriving DecidableEq, Repr

/-- The STATUS of an error (R220). -/
def ErrorCode.status : ErrorCode → Status
  | .invalidLength => .invalidLength
  | .invalidCharacter => .invalidCharacter

/-- The error response: CHAR = 0x00, MATCH = 0 (R204). -/
def errorFields (e : ErrorCode) : RespFields := { status := e.status, matched := false, char := 0x00#8 }

end Sys2Proof.Machine
end

