-- ==== Sys2Proof/Machine/Ops.lean ====
section
/-! DEFINITION. The named operations over the state: reads and writes of RAW, the marks of R85 (2), the one write of a response,
the one error response (44_operations.md R204), and the host's accesses and reset (70_reset_and_hazards.md R260, R267). -/

namespace Sys2Proof.Machine

/-! RAW. -/

/-- RAW[k]: the byte the host last wrote there (20_memory.md R51). A read has no side effect (R55). -/
def rawRead : RawBuffer → Nat → Byte
  | [], _ => rawUnlisted
  | (a, b) :: rest, k => if a = k then b else rawRead rest k

/-- A cell put in front, unless it holds what an unlisted position reads as. -/
def rawCons (k : Nat) (b : Byte) (rest : RawBuffer) : RawBuffer :=
  if b = rawUnlisted then rest else (k, b) :: rest

/-- RAW with byte `b` at position `k`, in the canonical form. Only the host writes RAW (10_state.md R26). -/
def rawWrite : RawBuffer → Nat → Byte → RawBuffer
  | [], k, b => rawCons k b []
  | (a, c) :: rest, k, b =>
    if a = k then rawCons k b rest
    else if k < a then rawCons k b ((a, c) :: rest)
    else (a, c) :: rawWrite rest k b

/-- The canonical form from position `lo` on: positions strictly rising and below RAW_MAX, no byte equal to `rawUnlisted`. -/
def rawWfFrom : Nat → RawBuffer → Bool
  | _, [] => true
  | lo, (a, b) :: rest => decide (lo ≤ a) && decide (a < rawMax) && b != rawUnlisted && rawWfFrom (a + 1) rest

/-- The canonical form of RAW. -/
def Memory.wf (raw : RawBuffer) : Bool := rawWfFrom 0 raw

/-! The marks of R85 (2): which RAW positions the host has written for the request to come (log 4). -/

/-- RAW[0..n-1] are all marked. -/
def allWritten (n : Nat) (marks : Vector Bool rawMax) : Bool := (marks.toList.take n).all id

/-- Marks 0..n-1 set, the others kept. -/
def markFirst (n : Nat) (marks : Vector Bool rawMax) : Vector Bool rawMax :=
  ⟨(List.replicate (min n rawMax) true ++ marks.toList.drop (min n rawMax)).toArray, by simp⟩

/-! The responses. -/

/-- The request is used up: its RAW bytes count as written for it and for no later one (R85, R263; log 4). -/
def consumeRequest (s : State) : State := { s with rawWritten := noneWritten }

/-- The one write of RESP: every field at once, and RESP_VALID set (10_state.md R23, R24; 44_operations.md R202). -/
def respond (f : RespFields) (s : State) : State :=
  { s with resp := encodeResp f, respValid := true, rawWritten := noneWritten }

/-- `raise INVALID_LENGTH()` and `raise INVALID_CHARACTER()`: an error is a response, not a trap; nothing is saved and no
control moves (44_operations.md R204; 60_exceptions.md R223, R225). -/
def raiseError (e : ErrorCode) (s : State) : State := respond (errorFields e) s

/-- How an operation ends early: a raised error (00_scope.md R9), or a model fault (60_exceptions.md R233). -/
inductive Abort where
  | raised (e : ErrorCode)
  | faulted (f : Fault)
deriving DecidableEq, Repr

/-- The end of an operation: its response, its error response, or the fault (44_operations.md R202, R204). -/
def finish (r : Except Abort RespFields) (s : State) : Host.Outcome State Fault Refusal :=
  match r with
  | .ok f => .next (respond f s)
  | .error (.raised e) => .next (raiseError e s)
  | .error (.faulted f) => .fault f

/-! The host's accesses (70_reset_and_hazards.md R267). -/

/-- Byte `b` written to RAW[k], k below RAW_MAX. -/
def setRawByte (k : Nat) (b : Byte) (s : State) : State :=
  { s with raw := rawWrite s.raw k b, rawWritten := s.rawWritten.setIfInBounds k true }

/-- Bytes written to RAW[k], RAW[k+1], ... in order. -/
def setRawFrom : Nat → List Byte → State → State
  | _, [], s => s
  | k, b :: bs, s => setRawFrom (k + 1) bs (setRawByte k b s)

/-- `write RAW` at one position, in any order (R263). A position above RAW[254] does not exist (10_state.md R26; log 10). -/
def hostWriteRawByte (k : Nat) (b : Byte) (s : State) : Host.Outcome State Fault Refusal :=
  if k < rawMax then .next (setRawByte k b s) else .refused .notPresentable

/-- `write RAW <bytes>`: RAW[0..n-1]. More than RAW_MAX bytes cannot be presented (30_encoding.md R89; log 10). -/
def hostWriteRaw (bytes : List Byte) (s : State) : Host.Outcome State Fault Refusal :=
  if bytes.length ≤ rawMax then .next (setRawFrom 0 bytes s) else .refused .notPresentable

/-- `write CMD`: any word (R267); the block reads it only at the issue step (10_state.md R25). -/
def hostWriteCmd (w : Word) (s : State) : State := { s with cmd := w }

/-- `read RESP`: the last response, or READ_BEFORE_RESPONSE while RESP_VALID = 0 (10_state.md R23). -/
def hostReadResp (s : State) : Except Fault Word :=
  if s.respValid then .ok (hardwireRsvd s.resp) else .error .readBeforeResponse

/-- `read RESP_VALID`: the flag, at any time (10_state.md R23, R267). -/
def hostReadRespValid (s : State) : Bool := s.respValid

/-- `reset`: RESP_VALID <- 0 and nothing else changes (R260). The marks of R85 (2) are cleared: what CMD, RAW and RESP hold
is unspecified from here on (log 4, 6). -/
def hostReset (s : State) : State := { s with respValid := false, rawWritten := noneWritten }

end Sys2Proof.Machine
end

