-- ==== Sys2Proof/Machine/Operands.lean ====
section
/-! DEFINITION. The one operand of both operations: the raw identifier RAW[0..LEN-1] (30_encoding.md R86). -/

namespace Sys2Proof.Machine

/-- RAWSTR = RAW[0..LEN-1], RAW[0] leftmost; LEN = 0 gives the empty string (30_encoding.md R86, 20_memory.md R52). -/
def rawString (s : State) (len : Byte) : List Byte := (List.range len.toNat).map fun k => rawRead s.raw k

end Sys2Proof.Machine
end

