-- ==== Sys2Proof/Machine/FrontEnd.lean ====
section
/-! DEFINITION. The front end: normaliser, length gates, payload and trailing character (40_front_end.md R110-R118). -/

namespace Sys2Proof.Machine

/-- Case mapping: b - 0x20 on 0x61..0x7A, and every other byte unchanged (R112). -/
def upcase (b : Byte) : Byte := if 0x61#8 ≤ b ∧ b ≤ 0x7A#8 then b - 0x20#8 else b

/-- NORMALIZE: left to right, '-' is dropped and letters are upper-cased (R110, R111). -/
def normalise : List Byte → List Byte
  | [] => []
  | b :: bs => if b = 0x2D#8 then normalise bs else upcase b :: normalise bs

/-- LENGTH_GATE_COMPUTE: NLEN must be 14 or 15 (R114). -/
def lengthGateCompute (nlen : Nat) : Except ErrorCode Unit :=
  if nlen ≠ nPayload ∧ nlen ≠ nId then .error .invalidLength else .ok ()

/-- LENGTH_GATE_VERIFY: NLEN must be 15 (R115). -/
def lengthGateVerify (nlen : Nat) : Except ErrorCode Unit :=
  if nlen ≠ nId then .error .invalidLength else .ok ()

/-- PL = N[0..13] (R116). -/
def payload (n : List Byte) : List Byte := n.take nPayload

/-- T = N[14] (R117). Read only after the gate of R115, so that N[14] exists. -/
def trailing (n : List Byte) : Byte := n.getD nPayload 0x00#8

end Sys2Proof.Machine
end

