-- ==== Sys2Proof/Machine/Operations.lean ====
section
/-! DEFINITION. CHECKDIGIT and the operations COMPUTE and VERIFY (44_operations.md R200, R201). -/

namespace Sys2Proof.Machine

/-- CHECKDIGIT(PL): LOOKUP, FLATTEN and the datapath, in order (44_operations.md, shared pseudocode). -/
def checkDigit (roms : Roms) (pl : List Byte) : Except Abort Byte :=
  match lookup roms pl with
  | none => .error (.raised .invalidCharacter)
  | some es =>
    match datapath roms (flatten es) with
    | .error f => .error (.faulted f)
    | .ok p => .ok p.chk

/-- COMPUTE on a raw identifier, up to its response fields (R200). The length gate runs first (60_exceptions.md R224). -/
def computeFields (roms : Roms) (rawstr : List Byte) : Except Abort RespFields :=
  let n := normalise rawstr
  match lengthGateCompute n.length with
  | .error e => .error (.raised e)
  | .ok _ =>
    match checkDigit roms (payload n) with
    | .error a => .error a
    | .ok chk => .ok (okChar chk)

/-- VERIFY on a raw identifier, up to its response fields (R201). -/
def verifyFields (roms : Roms) (rawstr : List Byte) : Except Abort RespFields :=
  let n := normalise rawstr
  match lengthGateVerify n.length with
  | .error e => .error (.raised e)
  | .ok _ =>
    match checkDigit roms (payload n) with
    | .error a => .error a
    | .ok chk => .ok (okMatch (matchFlag chk (trailing n)))

/-- COMPUTE (R200). -/
def execCompute (len : Byte) (s : State) : Host.Outcome State Fault Refusal :=
  finish (computeFields s.roms (rawString s len)) s

/-- VERIFY (R201). -/
def execVerify (len : Byte) (s : State) : Host.Outcome State Fault Refusal :=
  finish (verifyFields s.roms (rawString s len)) s

end Sys2Proof.Machine
end

