-- ==== Sys2Proof/Machine/Dispatch.lean ====
section
/-! DEFINITION. One arm per instruction (30_encoding.md R84, 44_operations.md R202). -/

namespace Sys2Proof.Machine

def exec (i : Instr) (s : State) : Host.Outcome State Fault Refusal :=
  match i with
  | .compute len => Sys2Proof.Machine.execCompute len s
  | .verify len => Sys2Proof.Machine.execVerify len s

end Sys2Proof.Machine
end

