-- ==== Sys2Proof/Decode.lean ====
section
/-! DEFINITION. The CMD word: its fields, its decoder and its encoder (30_encoding.md R81, R84, R85), and the same on bytes in
the order of 20_memory.md R53. -/

namespace Sys2Proof

/-- CMD.OP = CMD[0] (30_encoding.md R81). -/
def cmdOp (w : Word) : BitVec 1 := w.extractLsb' 0 1
/-- CMD.RSVD = CMD[7:1], which must be 0 (R81, R85). -/
def cmdRsvd (w : Word) : BitVec 7 := w.extractLsb' 1 7
/-- CMD.LEN = CMD[15:8] (R81). -/
def cmdLen (w : Word) : Byte := w.extractLsb' 8 8

/-- Why no instruction is read. `reservedBits`: CMD.RSVD is not 0 (R85, R88). `truncated`: fewer than the two bytes of a CMD
word are there (R80). -/
inductive DecodeError where
  | reservedBits
  | truncated
deriving DecidableEq, Repr

/-- The operation map of R84: the two rows of opcode_table.json, each a match under the mask 0x00FF. -/
def decodeCmd (w : Word) : Except DecodeError Instr :=
  if w &&& 0x00FF#16 = 0x0000#16 then .ok (.compute (cmdLen w))
  else if w &&& 0x00FF#16 = 0x0001#16 then .ok (.verify (cmdLen w))
  else .error .reservedBits

/-- A CMD word carried over an 8-bit path: byte 0 is bits 7:0 and byte 1 is bits 15:8 (20_memory.md R53). -/
def wordOfBytes (b0 b1 : Byte) : Word := b1 ++ b0

/-- The decoder on bytes: the instruction and the bytes after it. -/
def decodeBytes : List Byte → Except DecodeError (Instr × List Byte)
  | b0 :: b1 :: rest =>
    match decodeCmd (wordOfBytes b0 b1) with
    | .ok i => .ok (i, rest)
    | .error e => .error e
  | _ => .error .truncated

/-- The CMD word of a request: LEN, seven zeros, OP (R81, R90). -/
def encodeCmd : Instr → Word
  | .compute len => len ++ (0#7 ++ 0#1)
  | .verify len => len ++ (0#7 ++ 1#1)

/-- A word as two bytes, low byte first (20_memory.md R53). -/
def bytesOfWord (w : Word) : List Byte := [w.extractLsb' 0 8, w.extractLsb' 8 8]

/-- The encoder on bytes. -/
def encodeBytes (i : Instr) : List Byte := bytesOfWord (encodeCmd i)

/-- The instruction the decoder reads from a table word `w` of `nbits` bits; bits above `nbits` are 0. -/
def decodeTableWord (nbits w : Nat) : Option Instr :=
  match decodeBytes (bytesOfWord (BitVec.ofNat 16 (w % 2 ^ nbits))) with
  | .ok (i, _) => some i
  | .error _ => none

end Sys2Proof
end

