-- ==== Sys2Proof/Machine/Issue.lean ====
section
/-! DEFINITION. What the issue step reads before it runs an operation: the instruction in CMD, and whether the request is
well-formed (30_encoding.md R84, R85; 44_operations.md R202). -/

namespace Sys2Proof.Machine

/-- The request that CMD and RAW present, or what makes it ill-formed (R85). When both conditions fail the reserved bits are
named (log 21). -/
def fetchRequest (s : State) : Except RequestDefect Instr :=
  match decodeCmd s.cmd with
  | .error _ => .error .reservedBits
  | .ok i => if allWritten i.len.toNat s.rawWritten then .ok i else .error .rawNotWritten

/-- CMD set to a table word, and the RAW bytes it names marked as written for this request; their values are kept. -/
def placeRequest (w : Word) (s : State) : State :=
  { s with cmd := w, rawWritten := markFirst (cmdLen w).toNat s.rawWritten }

end Sys2Proof.Machine
end

