-- ==== Sys2Proof/Machine/Step.lean ====
section
/-! DEFINITION. The issue step, the block's only step besides reset (44_operations.md R202), and how a request is placed for it
(log 8). -/

namespace Sys2Proof.Machine

/-- ISSUE: an ill-formed request is refused with the state unchanged; a well-formed one runs, as one atomic step (R202). -/
def step (s : State) : Host.Outcome State Fault Refusal :=
  match fetchRequest s with
  | .error why => .refused (.refusedRequest why)
  | .ok i => exec i s

/-- The state with the request word `w` of `nbits` bits where the next issue reads it: in CMD, with RAW[0..LEN-1] marked as
written for it (log 8). -/
def State.withFetchWord (s : State) (nbits w : Nat) : State :=
  placeRequest (BitVec.ofNat 16 (w % 2 ^ nbits)) s

end Sys2Proof.Machine
end

