-- ==== Sys2Proof/Machine/HostMoves.lean ====
section
/-! DEFINITION. Runs: the host's moves one after another, the outcomes a run records, and what the host reads
(60_exceptions.md R233; 70_reset_and_hazards.md R267, R268). -/

namespace Sys2Proof.Machine

/-- The host's liberties (R267). -/
inductive HostMove where
  | writeRaw (bytes : List Byte)           -- RAW[0..n-1]
  | writeRawByte (k : Nat) (b : Byte)      -- RAW[k], in any order (R263)
  | writeCmd (w : Word)
  | issue
  | readRespValid
  | readResp
  | reset
deriving DecidableEq, Repr

/-- A refusal or a fault of a run. Each stays recorded and none is final (R233). -/
inductive Recorded where
  | refusal (r : Refusal)
  | fault (f : Fault)
deriving DecidableEq, Repr

/-- A run so far: the block, the outcome set (without repeats), the RESP values the host read (the observation of R268), and
the RESP_VALID values it read. -/
structure Run where
  machine   : State
  outcomes  : List Recorded
  observed  : List Word
  flagReads : List Bool
deriving DecidableEq, Repr

/-- The state just after reset, nothing recorded and nothing read (95_test_vectors.md L3). -/
def Run.start : Run := { machine := State.reset, outcomes := [], observed := [], flagReads := [] }

/-- An outcome added to the set. -/
def Run.record (o : Recorded) (r : Run) : Run :=
  { r with outcomes := if o ∈ r.outcomes then r.outcomes else r.outcomes ++ [o] }

/-- A move's outcome taken into the run. A refusal or a fault is recorded, and the run goes on from `stopped` (log 9). -/
def Run.take (o : Host.Outcome State Fault Refusal) (stopped : State) (r : Run) : Run :=
  match o with
  | .next t => { r with machine := t }
  | .refused x => { r with machine := stopped }.record (.refusal x)
  | .fault f => { r with machine := stopped }.record (.fault f)

/-- A read of RESP: its value is observed, or its fault recorded; the block does not change (10_state.md R23). -/
def Run.readResp (r : Run) : Run :=
  match hostReadResp r.machine with
  | .ok w => { r with observed := r.observed ++ [w] }
  | .error f => r.record (.fault f)

/-- One move of the host (R267). A refused issue leaves RESP and RESP_VALID unchanged (30_encoding.md R85) and uses up the
request's RAW bytes (95_test_vectors.md L3.3; log 4). -/
def Run.move (m : HostMove) (r : Run) : Run :=
  match m with
  | .writeRaw bytes => r.take (hostWriteRaw bytes r.machine) r.machine
  | .writeRawByte k b => r.take (hostWriteRawByte k b r.machine) r.machine
  | .writeCmd w => { r with machine := hostWriteCmd w r.machine }
  | .issue => r.take (step r.machine) (consumeRequest r.machine)
  | .readRespValid => { r with flagReads := r.flagReads ++ [hostReadRespValid r.machine] }
  | .readResp => r.readResp
  | .reset => { r with machine := hostReset r.machine }

/-- A finite sequence of moves (R268). -/
def Run.moves (ms : List HostMove) (r : Run) : Run := ms.foldl (fun r m => r.move m) r

/-- Several instances of the block, each with a run of its own: a move at instance `k` is a move of that instance alone
(60_exceptions.md R230). Several hosts of one instance are moves of the same run, in the order their arbitration gives. -/
def moveInstance (k : Nat) (m : HostMove) (runs : List Run) : List Run := runs.modify k (Run.move m)

/-- Moves at several instances, one after another in the order given, each with the number of its instance (R230; log 15). -/
def movesInstances (kms : List (Nat × HostMove)) (runs : List Run) : List Run :=
  kms.foldl (fun rs km => moveInstance km.1 km.2 rs) runs

/-- One request, in the order of R263: RAW, then CMD, then issue; then the response is read. -/
def transaction (w : Word) (bytes : List Byte) : List HostMove := [.writeRaw bytes, .writeCmd w, .issue, .readResp]

end Sys2Proof.Machine
end

