-- ==== Sys2Proof/Machine/Assembler.lean ====
section
/-! DEFINITION. The textual syntax of requests and responses (30_encoding.md R90), on texts as lists of characters. What R90
does not say of the syntax (spaces, comments, hex digits' case, an escaped printable byte) is a DESIGN CHOICE, log 23; no step depends on it. -/

namespace Sys2Proof.Machine

/-- A request as a program writes it: the operation and the raw bytes. -/
structure Request where
  verify : Bool
  bytes  : List Byte
deriving DecidableEq, Repr

/-- The instruction of a request whose bytes the interface can carry; LEN is the number of bytes (R89, R90). -/
def Request.instr (q : Request) : Option Instr :=
  if q.bytes.length ≤ rawMax then
    some (if q.verify then .verify (BitVec.ofNat 8 q.bytes.length) else .compute (BitVec.ofNat 8 q.bytes.length))
  else none

/-- The host's moves for a request (70_reset_and_hazards.md R263). -/
def Request.transaction (q : Request) : Option (List HostMove) :=
  match q.instr with
  | some i => some (Machine.transaction (encodeCmd i) q.bytes)
  | none => none

/-- The value of a hex digit, either case. -/
def hexDigit (c : Char) : Option Nat :=
  let n := c.toNat
  if 0x30 ≤ n ∧ n ≤ 0x39 then some (n - 0x30)
  else if 0x41 ≤ n ∧ n ≤ 0x46 then some (n - 0x37)
  else if 0x61 ≤ n ∧ n ≤ 0x66 then some (n - 0x57)
  else none

/-- A byte before the rest of a literal that was read. -/
def pushByte (n : Nat) : Option (List Byte × List Char) → Option (List Byte × List Char)
  | some (bs, out) => some (BitVec.ofNat 8 n :: bs, out)
  | none => none

/-- A character that stands for itself in a literal: printable, and neither the quote 0x22 nor the backslash 0x5C (R90). -/
def plainCode (n : Nat) : Bool := decide (0x20 ≤ n) && decide (n ≤ 0x7E) && n != 0x22 && n != 0x5C

/-- Where a literal is read: a plain place, after a backslash, and before the two digits of an \xHH escape. -/
inductive LiteralPlace where
  | plain
  | escaped
  | hexHigh
  | hexLow (high : Nat)
deriving DecidableEq, Repr

/-- The bytes of a string literal after its opening quote, and the text after its closing quote. A byte that is not
printable is written \xHH; the quote and the backslash escape themselves (R90). DESIGN CHOICE, log 23: R90 does not say
whether \xHH may stand for a printable byte; the model reads \xHH as the byte 0xHH for every byte, so \x41 is 'A'. -/
def literalBytes : LiteralPlace → List Char → Option (List Byte × List Char)
  | _, [] => none
  | .plain, c :: cs =>
    if c.toNat = 0x22 then some ([], cs)
    else if c.toNat = 0x5C then literalBytes .escaped cs
    else if plainCode c.toNat then pushByte c.toNat (literalBytes .plain cs)
    else none
  | .escaped, c :: cs =>
    if c.toNat = 0x22 ∨ c.toNat = 0x5C then pushByte c.toNat (literalBytes .plain cs)
    else if c.toNat = 0x78 then literalBytes .hexHigh cs
    else none
  | .hexHigh, c :: cs =>
    match hexDigit c with
    | some a => literalBytes (.hexLow a) cs
    | none => none
  | .hexLow a, c :: cs =>
    match hexDigit c with
    | some b => pushByte (16 * a + b) (literalBytes .plain cs)
    | none => none

/-- Leading spaces dropped. -/
def skipSpaces : List Char → List Char
  | [] => []
  | c :: cs => if c.toNat = 0x20 then skipSpaces cs else c :: cs

/-- Nothing more on the line but spaces and a comment that a semicolon begins. -/
def lineEnds (cs : List Char) : Bool :=
  match skipSpaces cs with
  | [] => true
  | c :: _ => c.toNat == 0x3B

/-- The quoted operand of a line. -/
def operand (verify : Bool) (cs : List Char) : Option Request :=
  match skipSpaces cs with
  | [] => none
  | c :: rest =>
    if c.toNat = 0x22 then
      match literalBytes .plain rest with
      | some (bytes, out) =>
        if lineEnds out && decide (bytes.length ≤ rawMax) then some { verify := verify, bytes := bytes } else none
      | none => none
    else none

/-- One line of R90: a mnemonic, a space, and the raw identifier as a string literal of at most RAW_MAX bytes. -/
def assemble : List Char → Option Request
  | 'C' :: 'O' :: 'M' :: 'P' :: 'U' :: 'T' :: 'E' :: ' ' :: rest => operand false rest
  | 'V' :: 'E' :: 'R' :: 'I' :: 'F' :: 'Y' :: ' ' :: rest => operand true rest
  | _ => none

/-- A hex digit as a character. -/
def hexChar (n : Nat) : Char := if n < 10 then Char.ofNat (0x30 + n) else Char.ofNat (0x37 + n)

/-- A byte as it stands in a literal (R90). -/
def literalChars (b : Byte) : List Char :=
  if plainCode b.toNat then [Char.ofNat b.toNat]
  else if b.toNat = 0x22 ∨ b.toNat = 0x5C then [Char.ofNat 0x5C, Char.ofNat b.toNat]
  else [Char.ofNat 0x5C, 'x', hexChar (b.toNat / 16), hexChar (b.toNat % 16)]

/-- A request as R90 writes it. -/
def requestText (q : Request) : List Char :=
  (if q.verify then ['V', 'E', 'R', 'I', 'F', 'Y', ' '] else ['C', 'O', 'M', 'P', 'U', 'T', 'E', ' '])
    ++ (Char.ofNat 0x22 :: (q.bytes.flatMap literalChars ++ [Char.ofNat 0x22]))

/-- A response as R90 writes it, for the operation it answers. -/
def responseText (verify : Bool) (f : RespFields) : List Char :=
  match f.status with
  | .invalidLength => "INVALID_LENGTH".toList
  | .invalidCharacter => "INVALID_CHARACTER".toList
  | .ok =>
    if verify then (if f.matched then "OK true".toList else "OK false".toList)
    else ['O', 'K', ' ', Char.ofNat 0x27, Char.ofNat f.char.toNat, Char.ofNat 0x27]

end Sys2Proof.Machine
end

