-- ==== Sys2Proof/Machine/Realisation.lean ====
section
/-! DEFINITION. The freedoms the spec gives a realisation: the order and shape of the additions (42_weighted_accumulator.md
R158), modular residues instead of sums (R157), and the closed forms of the remaps (43_modular_adder_tree.md R175). The model
itself runs the pseudocode of R152-R155; these stand beside it so that their equality can be stated. -/

namespace Sys2Proof.Machine

/-- A tree of adders over payload positions: serial, parallel or anything between (R158). -/
inductive AdderShape where
  | position (i : Fin 14)
  | add (l r : AdderShape)
deriving DecidableEq, Repr

/-- The positions a tree adds, left to right. -/
def AdderShape.positions : AdderShape → List (Fin 14)
  | .position i => [i]
  | .add l r => l.positions ++ r.positions

/-- The tree's sum, each adder reducing modulo m (R157). -/
def AdderShape.residue (m : Nat) (term : Fin 14 → Nat) : AdderShape → Nat
  | .position i => term i % m
  | .add l r => (l.residue m term + r.residue m term) % m

/-- The tree's sum as a natural. -/
def AdderShape.sum (term : Fin 14 → Nat) : AdderShape → Nat
  | .position i => term i
  | .add l r => l.sum term + r.sum term

/-- The closed form of f (R175). -/
def remapFClosed (x : Nat) : Nat := (3 - x) % 3

/-- The closed form of g (R175). -/
def remapGClosed (y : Nat) : Nat := (6 - y) % 3

end Sys2Proof.Machine
end

