-- ==== Sys2Proof/WellFormed.lean ====
section
/-! DEFINITION. What makes the data of the block well-formed: the alphabet's codes (41_vector_lookup.md R130), the constraints
on the tables (R138, 43_modular_adder_tree.md R179), a presentable raw input (30_encoding.md R89) and a legal response
(10_state.md R24, 44_operations.md R204). The ranges of R138 (b) and R151 hold by the types of Config. -/

namespace Sys2Proof

/-- The 36 symbols '0'..'9' and 'A'..'Z' (41_vector_lookup.md R130). -/
def isAlphabetCode (b : Byte) : Bool :=
  (0x30#8 ≤ b && b ≤ 0x39#8) || (0x41#8 ≤ b && b ≤ 0x5A#8)

/-- Index v read as the vector it stands for (43_modular_adder_tree.md R177, R179). -/
def vecOfIndex (v : Fin nV) : CharVec :=
  { m0 := Fin.ofNat 2 v, m1 := Fin.ofNat 2 (v / 2), m2 := Fin.ofNat 3 (v / 4), m3 := Fin.ofNat 3 (v / 12) }

/-- The constraints a model that takes the tables as arguments must require (41_vector_lookup.md R138,
43_modular_adder_tree.md R179). -/
structure Roms.WellFormed (roms : Roms) : Prop where
  /-- R138 (a): exactly the 36 codes have an entry. -/
  codes : ∀ b : Byte, (roms.alphabet[b.toNat]'b.isLt).isSome = isAlphabetCode b
  /-- R138 (c): one-to-one. -/
  oneToOne : ∀ (a b : Byte) (e : CharVec),
    roms.alphabet[a.toNat]'a.isLt = some e → roms.alphabet[b.toNat]'b.isLt = some e → a = b
  /-- R138 (c): onto. -/
  onto : ∀ e : CharVec, ∃ b : Byte, roms.alphabet[b.toNat]'b.isLt = some e
  /-- R179: REVERSE is the inverse of ALPHABET under the packing of R177. -/
  inverse : ∀ v : Fin nV,
    roms.alphabet[(roms.reverse[v]).toNat]'(roms.reverse[v]).isLt = some (vecOfIndex v)

/-- A raw input the interface can carry (30_encoding.md R89, 92_eei_decisions.md D32). -/
def presentable (raw : List Byte) : Bool := raw.length ≤ rawMax

/-- The responses the block can give: an error carries no character and no match (44_operations.md R204), and a success
carries the character of COMPUTE, an alphabet code, or the match bit of VERIFY, not both (10_state.md R24). -/
def RespFields.legal (f : RespFields) : Bool :=
  match f.status with
  | .ok => if f.char = 0x00#8 then true else !f.matched && isAlphabetCode f.char
  | .invalidLength => !f.matched && f.char == 0x00#8
  | .invalidCharacter => !f.matched && f.char == 0x00#8

end Sys2Proof
end

