-- ==== Sys2Proof/Safety.lean ====
section
/-! DEFINITION. What counts as a safe run (70_reset_and_hazards.md R268), the invariant of the block, and the terms in which the
statements say what the operations do: the normalised string, the weighted sums and the check character written as formulas
over the request, without the model's loops, its D buffer or its stages. -/

namespace Sys2Proof.Safety

open Sys2Proof.Machine

/-- A run is good when no refusal and no fault is recorded (R268). -/
def Good (r : Run) : Prop := r.outcomes = []

/-- RESP as a response can leave it: the word of legal fields (10_state.md R24, 44_operations.md R204). -/
def LegalResp (w : Word) : Prop := ∃ f : RespFields, f.legal = true ∧ w = encodeResp f

/-- What holds of the block in every state: RAW is canonical, the tables meet their constraints (00_scope.md R7), and a valid
response is a legal one. -/
structure Inv (s : State) : Prop where
  raw  : Memory.wf s.raw = true
  roms : s.roms.WellFormed
  resp : s.respValid = true → LegalResp s.resp

/-- RAW[0..LEN-1] is written for the request to come (30_encoding.md R85 (2)). -/
def WrittenUpTo (n : Nat) (s : State) : Prop := ∀ k : Fin rawMax, k.val < n → s.rawWritten[k] = true

/-- The well-formed requests of R85. -/
def WellFormedRequest (s : State) : Prop := cmdRsvd s.cmd = 0#7 ∧ WrittenUpTo (cmdLen s.cmd).toNat s

/-- The raw identifier RAW[0..LEN-1] (30_encoding.md R86). -/
def raw (s : State) (len : Byte) : List Byte := List.ofFn fun k : Fin len.toNat => rawRead s.raw k

/-- The case mapping of 40_front_end.md R112. -/
def upper (b : Byte) : Byte :=
  if 0x61 ≤ b.toNat ∧ b.toNat ≤ 0x7A then BitVec.ofNat 8 (b.toNat - 0x20) else b

/-- The normalised identifier: '-' removed, then every byte upper-cased (40_front_end.md R110). -/
def normal (bytes : List Byte) : List Byte := (bytes.filter fun b => b != 0x2D#8).map upper

/-- The vectors of the first 14 bytes of a normalised identifier: `e i` is ALPHABET(N[i]) (41_vector_lookup.md R134). -/
def HasVectors (roms : Roms) (n : List Byte) (e : Fin 14 → CharVec) : Prop :=
  ∀ i : Fin 14, ∃ b : Byte, n[i.val]? = some b ∧ alphabetAt roms b = some (e i)

/-- c1 of 42_weighted_accumulator.md R152 as a sum over the payload's vectors. -/
def c1 (roms : Roms) (e : Fin 14 → CharVec) : Nat :=
  ∑ i : Fin 14, ((e i).m0.val * roms.p1[i].k0.val + (e i).m1.val * roms.p1[i].k2.val)
/-- c2 (R153). -/
def c2 (roms : Roms) (e : Fin 14 → CharVec) : Nat :=
  ∑ i : Fin 14, ((e i).m0.val * roms.p1[i].k1.val + (e i).m1.val * roms.p1[i].k3.val)
/-- c3 (R154). -/
def c3 (roms : Roms) (e : Fin 14 → CharVec) : Nat :=
  ∑ i : Fin 14, ((e i).m2.val * roms.p2[i].k0.val + (e i).m3.val * roms.p2[i].k2.val)
/-- c4 (R155). -/
def c4 (roms : Roms) (e : Fin 14 → CharVec) : Nat :=
  ∑ i : Fin 14, ((e i).m2.val * roms.p2[i].k1.val + (e i).m3.val * roms.p2[i].k3.val)

/-- r1 = f(c4 mod 3), with f(0)=0, f(1)=2, f(2)=1 (43_modular_adder_tree.md R172). -/
def r1 (roms : Roms) (e : Fin 14 → CharVec) : Nat :=
  if c4 roms e % 3 = 0 then 0 else if c4 roms e % 3 = 1 then 2 else 1

/-- r2 = g(s) with s = (c3 mod 3) + r1, and g(0)=0, g(1)=2, g(2)=1, g(3)=0, g(4)=2 (R173, R174). -/
def r2 (roms : Roms) (e : Fin 14 → CharVec) : Nat :=
  let s := c3 roms e % 3 + r1 roms e
  if s = 0 ∨ s = 3 then 0 else if s = 1 ∨ s = 4 then 2 else 1

/-- The index v = q1 + 2 q2 + 4 r1 + 12 r2 (R170, R171, R177). -/
def index (roms : Roms) (e : Fin 14 → CharVec) : Nat :=
  c1 roms e % 2 + 2 * (c2 roms e % 2) + 4 * r1 roms e + 12 * r2 roms e

/-- `c` is the check character of a payload with vectors `e`: c = REVERSE[v], v in 0..35 (R177, R180). -/
def IsCheck (roms : Roms) (e : Fin 14 → CharVec) (c : Byte) : Prop :=
  ∃ h : index roms e < 36, c = roms.reverse[index roms e]

/-- The four sums of 43_modular_adder_tree.md R181 over the payload's vectors `e` and a 15th vector `m`, with the 15th rows
P1[14] = (1,0,0,1) and P2[14] = (1,1,1,0), are 0 modulo 2, 2, 3 and 3. -/
def Balanced (roms : Roms) (e : Fin 14 → CharVec) (m : CharVec) : Prop :=
  (c1 roms e + (m.m0.val * 1 + m.m1.val * 0)) % 2 = 0 ∧
  (c2 roms e + (m.m0.val * 0 + m.m1.val * 1)) % 2 = 0 ∧
  (c3 roms e + (m.m2.val * 1 + m.m3.val * 1)) % 3 = 0 ∧
  (c4 roms e + (m.m2.val * 1 + m.m3.val * 0)) % 3 = 0

/-- The length gates: COMPUTE accepts 14 and 15, VERIFY 15 (40_front_end.md R114, R115). -/
def GatePasses (i : Instr) (nlen : Nat) : Prop :=
  match i with
  | .compute _ => nlen = 14 ∨ nlen = 15
  | .verify _ => nlen = 15

/-- Some byte of the first 14 has no ALPHABET entry (60_exceptions.md R222). -/
def BadPayload (roms : Roms) (n : List Byte) : Prop :=
  ∃ i : Fin 14, ∃ b : Byte, n[i.val]? = some b ∧ alphabetAt roms b = none

/-- The instruction answers with the RESP word `w`: a next state with RESP and RESP_VALID written and CMD, RAW and the ROMs
as they were (44_operations.md R202, 20_memory.md R57). The model's own marks are not spoken of (log 4). -/
def Answers (i : Instr) (s : State) (w : Word) : Prop :=
  ∃ t : State, exec i s = .next t ∧ t.resp = w ∧ t.respValid = true ∧ t.cmd = s.cmd ∧ t.raw = s.raw ∧ t.roms = s.roms

/-- c1, c2, c3, c4 of a payload, as the lookup engine and the accumulator give them; none where the lookup raises. -/
def sums (roms : Roms) (pl : List Byte) : Option (Nat × Nat × Nat × Nat) :=
  match lookup roms pl with
  | none => none
  | some es =>
    some (accC1 roms (flatten es), accC2 roms (flatten es), accC3 roms (flatten es), accC4 roms (flatten es))

/-- The byte that the move writes to RAW[k], if it writes one (70_reset_and_hazards.md R263). A write that cannot be presented
writes none (log 10). -/
def writesRaw (m : HostMove) (k : Nat) : Option Byte :=
  match m with
  | .writeRaw bytes => if bytes.length ≤ 255 then bytes[k]? else none
  | .writeRawByte j b => if j = k ∧ j < 255 then some b else none
  | .writeCmd _ | .issue | .readRespValid | .readResp | .reset => none

/-- The word that the move writes to CMD, if it writes one (10_state.md R25, 70_reset_and_hazards.md R267). -/
def writesCmd (m : HostMove) : Option Word :=
  match m with
  | .writeCmd w => some w
  | .writeRaw _ | .writeRawByte _ _ | .issue | .readRespValid | .readResp | .reset => none

end Sys2Proof.Safety
end

