-- ==== Sys2Proof/Certificates/Slice0/Obligations.lean ====
section
/-! DEFINITION. The statements about the block. "log <n>" is notes/assumptions/<n>.md. -/

open Sys2Proof Sys2Proof.Machine

/-! Encoding. -/

/-- Words written out from 30_encoding.md R81 and R84 (LEN in the high byte, RSVD, OP): what the decoder reads from them. -/
def Obligations.DecodeTableWords : Prop :=
  decodeTableWord 16 0x0E00 = some (.compute 14) ∧ decodeTableWord 16 0x0F01 = some (.verify 15) ∧
  decodeTableWord 16 0x0000 = some (.compute 0) ∧ decodeTableWord 16 0xFF01 = some (.verify 255) ∧
  decodeTableWord 16 0x0E02 = none ∧ decodeTableWord 16 0x0E80 = none ∧ decodeTableWord 16 0x0EFF = none

/-- 30_encoding.md R84: with RSVD = 0 the CMD word matches exactly one row, the one OP selects, with LEN = CMD[15:8]; with
another RSVD it matches none (R85). -/
def Obligations.OperationMap : Prop :=
  ∀ w : Word, decodeCmd w =
    if w.toNat / 2 % 128 = 0 then
      (if w.toNat % 2 = 0 then .ok (.compute (BitVec.ofNat 8 (w.toNat / 256)))
        else .ok (.verify (BitVec.ofNat 8 (w.toNat / 256))))
    else .error .reservedBits

/-- Decode and encode agree, both ways, on bytes in the order of 20_memory.md R53, for every instruction and operand. -/
def Obligations.EncodeDecodeAgree : Prop :=
  ∀ (bytes rest : List Byte) (i : Instr), decodeBytes bytes = .ok (i, rest) ↔ bytes = encodeBytes i ++ rest

/-- 20_memory.md R53: byte 0 of a word is bits 7:0 and byte 1 is bits 15:8, and the two bytes give the word back. -/
def Obligations.WordBytesAreLittleEndian : Prop :=
  ∀ w : Word, bytesOfWord w = [BitVec.ofNat 8 (w.toNat % 256), BitVec.ofNat 8 (w.toNat / 256)] ∧
    wordOfBytes (BitVec.ofNat 8 (w.toNat % 256)) (BitVec.ofNat 8 (w.toNat / 256)) = w

/-- 30_encoding.md section E1: CHAR in bits 15:8, RSVD = 0, MATCH in bit 2, STATUS in bits 1:0 with the codes
0, 1, 2; a reader of RESP gets the fields back, and refuses STATUS 0b11 (93_implementation_defined.md I5). That the reader refuses
an RSVD other than 0 as well, so that it reads no other word than the block can write, is the model's choice, log 22. -/
def Obligations.RespWordLayout : Prop :=
  (∀ f : RespFields, (encodeResp f).toNat = 256 * f.char.toNat + (if f.matched then 4 else 0) +
      (match f.status with | .ok => 0 | .invalidLength => 1 | .invalidCharacter => 2)) ∧
  (∀ (w : Word) (f : RespFields), decodeResp w = some f ↔ w = encodeResp f) ∧
  (∀ w : Word, w.toNat % 4 = 3 → decodeResp w = none)

/-- 10_state.md R24: RSVD[7:3] of RESP is hardwired 0. In every state a host read of RESP shows bits 7:3 as 0, and the other
bits as they are stored (log 13 for states no run reaches). -/
def Obligations.ReservedRespBitsReadZero : Prop :=
  ∀ (s : State), s.respValid = true → ∃ w : Word, hostReadResp s = .ok w ∧
    ∀ k : Nat, w.getLsbD k = (s.resp.getLsbD k && !(decide (3 ≤ k) && decide (k ≤ 7)))

/-- 30_encoding.md R90: a request written as text and assembled is the same request, for every operation and every raw
identifier of at most 255 bytes (the parts of the syntax R90 leaves open: log 23). -/
def Obligations.AssembleRequestText : Prop :=
  ∀ q : Request, q.bytes.length ≤ 255 → assemble (requestText q) = some q

/-! The issue step. -/

/-- 44_operations.md R202: when the two bytes of CMD decode to an instruction and RAW[0..LEN-1] is written for the request, a
step is that instruction. -/
def Obligations.StepRunsDecodedInstruction : Prop :=
  ∀ (s : State) (i : Instr), decodeBytes (bytesOfWord s.cmd) = .ok (i, []) → Safety.WrittenUpTo i.len.toNat s →
    step s = exec i s

/-- 30_encoding.md section E4, 44_operations.md "The issue step": a well-formed request is answered; an ill-formed one is
refused and recorded, with RESP, RESP_VALID, CMD, RAW and the ROMs unchanged. What counts as written for this request is the
model's, log 4. -/
def Obligations.IssueAdmitsExactlyWellFormed : Prop :=
  ∀ r : Run,
    (Safety.WellFormedRequest r.machine →
      ∃ t, step r.machine = .next t ∧ t.respValid = true ∧ r.move .issue = { r with machine := t }) ∧
    (¬ Safety.WellFormedRequest r.machine →
      (∃ why, step r.machine = .refused (.refusedRequest why) ∧
        Recorded.refusal (.refusedRequest why) ∈ (r.move .issue).outcomes) ∧
      (r.move .issue).machine.resp = r.machine.resp ∧
      (r.move .issue).machine.respValid = r.machine.respValid ∧
      (r.move .issue).machine.cmd = r.machine.cmd ∧ (r.move .issue).machine.raw = r.machine.raw ∧
      (r.move .issue).machine.roms = r.machine.roms ∧ (r.move .issue).observed = r.observed)

/-- Log 4 (the model's reading of "written for this request"): a position counts as written from the host's write of it until
the next issue or reset. -/
def Obligations.WrittenMarksFollowHostWrites : Prop :=
  ∀ (r : Run) (m : HostMove) (k : Fin rawMax),
    ((r.move m).machine.rawWritten[k] = true ↔
      ((Safety.writesRaw m k.val).isSome = true ∨ (m ≠ .issue ∧ m ≠ .reset ∧ r.machine.rawWritten[k] = true)))

/-! The operations. -/

/-- 44_operations.md R200, whole: COMPUTE answers INVALID_LENGTH when NLEN is neither 14 nor 15; otherwise INVALID_CHARACTER
when some payload byte has no ALPHABET entry; otherwise STATUS = OK, MATCH = 0 and CHAR = CHK, where CHK = REVERSE[v] and v is
the formula of R152-R155 and R170-R177 over the payload's vectors, and with well-formed tables CHK is an alphabet symbol. In
every state, for every LEN, the request encoded as LEN, seven zeros, 0. -/
def Obligations.ComputeAnswersCheckCharacter : Prop :=
  ∀ (s : State) (len : Byte),
    let n := Safety.normal (Safety.raw s len)
    encodeCmd (.compute len) = len ++ 0b0000000_0#8 ∧
    ((n.length ≠ 14 ∧ n.length ≠ 15) → Safety.Answers (.compute len) s 0x0001#16) ∧
    ((n.length = 14 ∨ n.length = 15) → Safety.BadPayload s.roms n → Safety.Answers (.compute len) s 0x0002#16) ∧
    ((n.length = 14 ∨ n.length = 15) → ∀ e, Safety.HasVectors s.roms n e →
      ∃ c : Byte, Safety.IsCheck s.roms e c ∧ (s.roms.WellFormed → isAlphabetCode c = true) ∧
        Safety.Answers (.compute len) s (c ++ 0x00#8))

/-- 44_operations.md R201, whole: VERIFY answers INVALID_LENGTH when NLEN is not 15; otherwise INVALID_CHARACTER when some
payload byte has no ALPHABET entry; otherwise STATUS = OK, CHAR = 0x00 and MATCH = 1 exactly when CHK is the trailing byte
N[14]. In every state, for every LEN, the request encoded as LEN, seven zeros, 1. -/
def Obligations.VerifyAnswersMatch : Prop :=
  ∀ (s : State) (len : Byte),
    let n := Safety.normal (Safety.raw s len)
    encodeCmd (.verify len) = len ++ 0b0000000_1#8 ∧
    (n.length ≠ 15 → Safety.Answers (.verify len) s 0x0001#16) ∧
    (n.length = 15 → Safety.BadPayload s.roms n → Safety.Answers (.verify len) s 0x0002#16) ∧
    (n.length = 15 → ∀ e, Safety.HasVectors s.roms n e →
      ∃ c : Byte, Safety.IsCheck s.roms e c ∧
        Safety.Answers (.verify len) s (if n[14]? = some c then 0x0004#16 else 0x0000#16))

/-- 20_memory.md R57, the frame of COMPUTE and VERIFY: CMD, every byte of RAW and every ROM are unchanged; RESP_VALID is set
and RESP's reserved bits are 0. Neither instruction stores. -/
def Obligations.InstructionFrame : Prop :=
  ∀ (i : Instr) (s t : State), exec i s = .next t →
    t.cmd = s.cmd ∧ t.raw = s.raw ∧ (∀ k : Nat, rawRead t.raw k = rawRead s.raw k) ∧ t.roms = s.roms ∧
    t.respValid = true ∧ respRsvd t.resp = 0#5

/-- 60_exceptions.md R220-R222 and R224: STATUS is INVALID_LENGTH exactly when the length gate fails, INVALID_CHARACTER exactly
when it passes and a payload byte has no entry, OK otherwise, and never 0b11; an error carries CHAR = 0x00 and MATCH = 0. -/
def Obligations.StatusNamesTheError : Prop :=
  ∀ (i : Instr) (s t : State), exec i s = .next t →
    let n := Safety.normal (Safety.raw s i.len)
    (respStatus t.resp = 0b01#2 ↔ ¬ Safety.GatePasses i n.length) ∧
    (respStatus t.resp = 0b10#2 ↔ Safety.GatePasses i n.length ∧ Safety.BadPayload s.roms n) ∧
    (respStatus t.resp = 0b00#2 ↔ Safety.GatePasses i n.length ∧ ¬ Safety.BadPayload s.roms n) ∧
    respStatus t.resp ≠ 0b11#2 ∧
    (respStatus t.resp ≠ 0b00#2 → respChar t.resp = 0x00#8 ∧ respMatch t.resp = 0#1)

/-- 44_operations.md R203: RESP is a function of the operation, RAW[0..LEN-1] and the tables alone; two states that agree on
them get the same RESP, whatever CMD, the other RAW bytes, the previous RESP and RESP_VALID are. -/
def Obligations.ResponseIsPure : Prop :=
  ∀ (i : Instr) (s u : State), s.roms = u.roms →
    (∀ k : Nat, k < i.len.toNat → rawRead s.raw k = rawRead u.raw k) →
    ∃ w : Word, Safety.Answers i s w ∧ Safety.Answers i u w

/-- 40_front_end.md R116: the payload is N[0..13]; and for COMPUTE with NLEN = 15 the byte N[14], whatever it is, plays no
part. -/
def Obligations.ComputeIgnoresFifteenth : Prop :=
  (∀ n : List Byte, 14 ≤ n.length → (payload n).length = 14 ∧ ∀ i : Nat, i < 14 → (payload n)[i]? = n[i]?) ∧
  ∀ (s u : State) (len len' : Byte) (p : List Byte) (x : Byte), p.length = 14 → s.roms = u.roms →
    Safety.normal (Safety.raw s len) = p ++ [x] → Safety.normal (Safety.raw u len') = p →
    ∃ w : Word, Safety.Answers (.compute len) s w ∧ Safety.Answers (.compute len') u w

/-- 44_operations.md R205: VERIFY's match is byte equality of CHK and the normalised trailing byte; CHK is an alphabet symbol, so
a trailing byte outside the alphabet fails to match: MATCH = 0 with STATUS = OK, no error. -/
def Obligations.TrailingComparedBytewise : Prop :=
  ∀ (s : State) (len x : Byte) (p : List Byte) (e : Fin 14 → CharVec), s.roms.WellFormed → p.length = 14 →
    Safety.normal (Safety.raw s len) = p ++ [x] → Safety.HasVectors s.roms p e →
    ∃ c : Byte, Safety.IsCheck s.roms e c ∧ isAlphabetCode c = true ∧
      Safety.Answers (.verify len) s (if c = x then 0x0004#16 else 0x0000#16) ∧
      (isAlphabetCode x = false → Safety.Answers (.verify len) s 0x0000#16)

/-! The front end. -/

/-- 40_front_end.md R110-R112: the normaliser removes exactly the bytes 0x2D and maps exactly 0x61..0x7A to b - 0x20, keeping
the order; its output is no longer than its input, which is LEN bytes of RAW, RAW[0] first. -/
def Obligations.NormaliserContract : Prop :=
  (∀ b : Byte, (upcase b).toNat = if 0x61 ≤ b.toNat ∧ b.toNat ≤ 0x7A then b.toNat - 0x20 else b.toNat) ∧
  (∀ x : List Byte, normalise x = Safety.normal x ∧ (normalise x).length ≤ x.length) ∧
  (∀ (s : State) (len : Byte), rawString s len = Safety.raw s len ∧ (rawString s len).length = len.toNat)

/-- The law of 40_front_end.md "Normaliser" on idempotence: the output holds no '-' and no lower-case letter, and normalising
such a string changes nothing. -/
def Obligations.NormaliserIdempotent : Prop :=
  ∀ x : List Byte, normalise (normalise x) = normalise x ∧
    ∀ b ∈ normalise x, b ≠ 0x2D#8 ∧ ¬ (0x61 ≤ b.toNat ∧ b.toNat ≤ 0x7A)

/-- 44_operations.md "Laws the reader may rely on", format insensitivity: a raw identifier and its normalised form get the same
RESP, from COMPUTE and from VERIFY. -/
def Obligations.FormatInsensitive : Prop :=
  ∀ (s u : State) (len len' : Byte), s.roms = u.roms →
    Safety.raw u len' = Safety.normal (Safety.raw s len) →
    (∃ w : Word, Safety.Answers (.compute len) s w ∧ Safety.Answers (.compute len') u w) ∧
    (∃ w : Word, Safety.Answers (.verify len) s w ∧ Safety.Answers (.verify len') u w)

/-! The datapath. -/

/-- 41_vector_lookup.md R134 and R135: LOOKUP gives the entries of the bytes in order, and nothing at all when some byte has no
entry; FLATTEN puts position i's vector at D[4i..4i+3], and D has four entries a position. -/
def Obligations.LookupAndFlatten : Prop :=
  (∀ (roms : Roms) (pl : List Byte),
    (lookup roms pl = none ↔ ∃ b ∈ pl, alphabetAt roms b = none) ∧
    ∀ es, lookup roms pl = some es ↔ pl.map (alphabetAt roms) = es.map some) ∧
  (∀ es : List CharVec, (flatten es).length = 4 * es.length ∧
    ∀ (i : Nat) (h : i < es.length),
      (flatten es)[4 * i]? = some es[i].m0.val ∧ (flatten es)[4 * i + 1]? = some es[i].m1.val ∧
      (flatten es)[4 * i + 2]? = some es[i].m2.val ∧ (flatten es)[4 * i + 3]? = some es[i].m3.val)

/-- 41_vector_lookup.md "Lookup and flattening": the ALPHABET entries of 'a'..'z' and '-' never decide a response. Two states
that differ in them alone get the same RESP. -/
def Obligations.LowerCaseNeverLookedUp : Prop :=
  ∀ (i : Instr) (s u : State), s.raw = u.raw → s.roms.p1 = u.roms.p1 → s.roms.p2 = u.roms.p2 →
    s.roms.reverse = u.roms.reverse →
    (∀ b : Byte, b ≠ 0x2D#8 → ¬ (0x61 ≤ b.toNat ∧ b.toNat ≤ 0x7A) → alphabetAt s.roms b = alphabetAt u.roms b) →
    ∃ w : Word, Safety.Answers i s w ∧ Safety.Answers i u w

/-- 42_weighted_accumulator.md "The four accumulators": each accumulator is the sum over i = 0..13 its rule writes, over any D buffer and any
tables (for a D shorter than 56 entries with 0 beyond its end, the model's choice, log 19); with the default tables, which are
PRESUMED (log 5), an all-'0' payload gives 0, an all-'Z' payload the maxima 19, 19, 66, 68, an all-'8' payload the maxima of c3
and c4, and "DE83DUIEN83QGZ" gives 10, 5, 43, 47. -/
def Obligations.AccumulatorSums : Prop :=
  (∀ (roms : Roms) (d : List Nat),
    accC1 roms d = ∑ i : Fin 14,
      (d.getD (4 * i.val) 0 * roms.p1[i].k0.val + d.getD (4 * i.val + 1) 0 * roms.p1[i].k2.val) ∧
    accC2 roms d = ∑ i : Fin 14,
      (d.getD (4 * i.val) 0 * roms.p1[i].k1.val + d.getD (4 * i.val + 1) 0 * roms.p1[i].k3.val) ∧
    accC3 roms d = ∑ i : Fin 14,
      (d.getD (4 * i.val + 2) 0 * roms.p2[i].k0.val + d.getD (4 * i.val + 3) 0 * roms.p2[i].k2.val) ∧
    accC4 roms d = ∑ i : Fin 14,
      (d.getD (4 * i.val + 2) 0 * roms.p2[i].k1.val + d.getD (4 * i.val + 3) 0 * roms.p2[i].k3.val)) ∧
  (∀ es : List CharVec, es.length = 14 →
    accC1 defaultRoms (flatten es) ≤ 19 ∧ accC2 defaultRoms (flatten es) ≤ 19 ∧
    accC3 defaultRoms (flatten es) ≤ 66 ∧ accC4 defaultRoms (flatten es) ≤ 68) ∧
  Safety.sums defaultRoms (List.replicate 14 0x30#8) = some (0, 0, 0, 0) ∧
  Safety.sums defaultRoms (List.replicate 14 0x5A#8) = some (19, 19, 66, 68) ∧
  Safety.sums defaultRoms (List.replicate 14 0x38#8) = some (0, 0, 66, 68) ∧
  Safety.sums defaultRoms [0x44#8, 0x45#8, 0x38#8, 0x33#8, 0x44#8, 0x55#8, 0x49#8, 0x45#8, 0x4E#8, 0x38#8, 0x33#8,
    0x51#8, 0x47#8, 0x5A#8] = some (10, 5, 43, 47)

/-- 42_weighted_accumulator.md "Arithmetic laws": the bounds that hold under any tables, so that 5 bits hold c1, c2 and 7 bits
hold c3, c4. -/
def Obligations.AccumulatorBounds : Prop :=
  ∀ (roms : Roms) (es : List CharVec), es.length = 14 →
    accC1 roms (flatten es) ≤ 28 ∧ accC2 roms (flatten es) ≤ 28 ∧
    accC3 roms (flatten es) ≤ 112 ∧ accC4 roms (flatten es) ≤ 112

/-- 42_weighted_accumulator.md "Arithmetic laws": a tree of adders of any shape and any order of the 14 positions gives the
accumulator's sum, and a tree that reduces modulo m at every adder gives its residue. -/
def Obligations.AdderShapesAgree : Prop :=
  ∀ (shape : AdderShape) (term : Fin 14 → Nat) (m : Nat), shape.positions.Perm (List.finRange 14) →
    shape.sum term = accumulate term ∧ shape.residue m term = accumulate term % m

/-- 43_modular_adder_tree.md R170-R174, R177 and R180: every stage's value, over any D buffer and any tables; the packing is
one-to-one and onto [0,36); and with well-formed tables CHK is the alphabet symbol whose entry is (q1, q2, r1, r2). -/
def Obligations.AdderTreeStages : Prop :=
  (∀ (roms : Roms) (d : List Nat), ∃ p : Datapath, datapath roms d = .ok p ∧
    p.c1 = accC1 roms d ∧ p.c2 = accC2 roms d ∧ p.c3 = accC3 roms d ∧ p.c4 = accC4 roms d ∧
    p.q1 = p.c1 % 2 ∧ p.q2 = p.c2 % 2 ∧
    p.r1 = ([0, 2, 1] : List Nat).getD (p.c4 % 3) 0 ∧
    p.s = p.c3 % 3 + p.r1 ∧ p.s ≤ 4 ∧
    p.r2 = ([0, 2, 1, 0, 2] : List Nat).getD p.s 0 ∧
    p.v = p.q1 + 2 * p.q2 + 4 * p.r1 + 12 * p.r2 ∧
    p.v % 2 = p.q1 ∧ p.v / 2 % 2 = p.q2 ∧ p.v / 4 % 3 = p.r1 ∧ p.v / 12 = p.r2 ∧
    (∃ h : p.v < 36, p.chk = roms.reverse[p.v]) ∧
    (roms.WellFormed → isAlphabetCode p.chk = true ∧ ∃ e : CharVec, alphabetAt roms p.chk = some e ∧
      e.m0.val = p.q1 ∧ e.m1.val = p.q2 ∧ e.m2.val = p.r1 ∧ e.m3.val = p.r2)) ∧
  (∀ v : Nat, v < 36 → packV (v % 2) (v / 2 % 2) (v / 4 % 3) (v / 12) = v)

/-- 43_modular_adder_tree.md R176: f has a value on {0,1,2} only and g on {0,..,4} only; an input outside is INTERNAL_INVARIANT,
never a value; and no instruction and no step ends in a fault, in any state. -/
def Obligations.RemapDomainNeverLeft : Prop :=
  (∀ x : Nat, if x ≤ 2 then (∃ y, y ≤ 2 ∧ remapF x = .ok y) else remapF x = .error .internalInvariant) ∧
  (∀ x : Nat, if x ≤ 4 then (∃ y, y ≤ 2 ∧ remapG x = .ok y) else remapG x = .error .internalInvariant) ∧
  (∀ (i : Instr) (s : State) (f : Fault), exec i s ≠ .fault f) ∧
  (∀ (s : State) (f : Fault), step s ≠ .fault f)

/-- 43_modular_adder_tree.md "Reductions", closed forms: (3 - x) mod 3 is f on {0,1,2} and (6 - y) mod 3 is g on {0,..,4}. -/
def Obligations.RemapClosedForms : Prop :=
  (∀ x : Fin 3, remapF x.val = .ok (remapFClosed x.val)) ∧ (∀ y : Fin 5, remapG y.val = .ok (remapGClosed y.val))

/-- 43_modular_adder_tree.md, warning to the reader, and 90_conflicts.md C3: any packing with a table that inverts ALPHABET under
it gives the same check character. -/
def Obligations.PackingIsImmaterial : Prop :=
  ∀ (roms : Roms) (pack : Fin 2 → Fin 2 → Fin 3 → Fin 3 → Nat) (table : Nat → Byte), roms.WellFormed →
    (∀ a b c d, alphabetAt roms (table (pack a b c d)) = some ⟨a, b, c, d⟩) →
    ∀ (d : List Nat) (p : Datapath), datapath roms d = .ok p →
      ∃ a b c e, a.val = p.q1 ∧ b.val = p.q2 ∧ c.val = p.r1 ∧ e.val = p.r2 ∧ table (pack a b c e) = p.chk

/-- The closed forms the spec gives with its default tables (log 5: PRESUMED, the spec's own general knowledge): ALPHABET of
symbol n is (n div 18, (n div 9) mod 2, (n div 3) mod 3, n mod 3), each row of P1 is the row before it times A = [[0,1],[1,1]]
mod 2, and each row of P2 the row before it times B = [[0,1],[1,2]] mod 3, from A and B on. -/
def Obligations.DefaultTablesClosedForms : Prop :=
  (∀ n : Fin 36, alphabetAt defaultRoms (BitVec.ofNat 8 (if n.val < 10 then 0x30 + n.val else 0x37 + n.val)) =
    some ⟨Fin.ofNat 2 (n.val / 18), Fin.ofNat 2 (n.val / 9), Fin.ofNat 3 (n.val / 3), Fin.ofNat 3 n.val⟩) ∧
  defaultP1[0] = ⟨0, 1, 1, 1⟩ ∧ defaultP2[0] = ⟨0, 1, 1, 2⟩ ∧
  (∀ i : Fin 13,
    (let x := defaultP1[i.val]; defaultP1[i.val + 1] = ⟨x.k1, x.k0 + x.k1, x.k3, x.k2 + x.k3⟩) ∧
    (let y := defaultP2[i.val]; defaultP2[i.val + 1] = ⟨y.k1, y.k0 + 2 * y.k1, y.k3, y.k2 + 2 * y.k3⟩))

/-! The laws of the check digit. -/

/-- 43_modular_adder_tree.md "Index and reverse lookup", the check equation, under any well-formed tables and so under the
default ones (log 5): the datapath's CHK is a symbol whose vector balances the four sums of `Safety.Balanced`, for all payload
vectors; COMPUTE answers such a symbol; and VERIFY of a payload and a trailing byte with an ALPHABET entry answers OK true
exactly when the trailing byte's vector balances them. -/
def Obligations.CheckEquation : Prop :=
  (∀ (roms : Roms) (e : Fin 14 → CharVec) (p : Datapath), roms.WellFormed →
    datapath roms (flatten (List.ofFn e)) = .ok p →
    ∃ m : CharVec, alphabetAt roms p.chk = some m ∧ Safety.Balanced roms e m) ∧
  ∀ (s : State) (len : Byte) (e : Fin 14 → CharVec), s.roms.WellFormed →
    let n := Safety.normal (Safety.raw s len)
    Safety.HasVectors s.roms n e →
    ((n.length = 14 ∨ n.length = 15) → ∃ (c : Byte) (m : CharVec),
      Safety.Answers (.compute len) s (c ++ 0x00#8) ∧ alphabetAt s.roms c = some m ∧ Safety.Balanced s.roms e m) ∧
    (n.length = 15 → ∀ (x : Byte) (m : CharVec), n[14]? = some x → alphabetAt s.roms x = some m →
      (Safety.Balanced s.roms e m → Safety.Answers (.verify len) s 0x0004#16) ∧
      (¬ Safety.Balanced s.roms e m → Safety.Answers (.verify len) s 0x0000#16))

/-- 44_operations.md "Laws the reader may rely on", round trip, under any well-formed tables: COMPUTE of 14 alphabet symbols
gives a symbol c; VERIFY of the symbols and a byte T gives OK true for c and its lower case, INVALID_LENGTH for '-', and OK
false for every other T. -/
def Obligations.RoundTrip : Prop :=
  ∀ (s : State) (p : List Byte), s.roms.WellFormed → p.length = 14 → (∀ b ∈ p, isAlphabetCode b = true) →
    Safety.raw s 14#8 = p →
    ∃ c : Byte, isAlphabetCode c = true ∧ Safety.Answers (.compute 14#8) s (c ++ 0x00#8) ∧
      ∀ (u : State) (x : Byte), u.roms = s.roms → Safety.raw u 15#8 = p ++ [x] →
        Safety.Answers (.verify 15#8) u
          (if x = c ∨ (0x41 ≤ c.toNat ∧ x.toNat = c.toNat + 0x20) then 0x0004#16
            else if x = 0x2D#8 then 0x0001#16 else 0x0000#16)

/-- 44_operations.md "Laws the reader may rely on", error detection (default tables, log 5): another alphabet symbol at any one of
the 15 positions of an identifier that verifies makes VERIFY answer OK false. -/
def Obligations.SingleSubstitutionDetected : Prop :=
  ∀ (s u : State) (x : List Byte) (k : Fin 15) (y : Byte), s.roms = defaultRoms → u.roms = defaultRoms →
    x.length = 15 → (∀ b ∈ x, isAlphabetCode b = true) → isAlphabetCode y = true → x[k.val]? ≠ some y →
    Safety.raw s 15#8 = x → Safety.raw u 15#8 = x.set k.val y →
    Safety.Answers (.verify 15#8) s 0x0004#16 → Safety.Answers (.verify 15#8) u 0x0000#16

/-! Reset, the host and runs. -/

/-- 70_reset_and_hazards.md section I1: right after reset there is no valid response. The invariant holds there: RAW is canonical,
with nothing listed (the bytes it reads as are the model's choice, log 3), and the tables, which are PRESUMED (log 5), meet their
constraints. -/
def Obligations.ResetInvariant : Prop := Safety.Inv State.reset ∧ State.reset.respValid = false

/-- Every step keeps the invariant: RAW canonical, the tables well-formed, a valid RESP one of the legal responses
(10_state.md R24, 00_scope.md R7). -/
def Obligations.StepKeepsInvariant : Prop :=
  ∀ s t : State, Safety.Inv s → step s = .next t → Safety.Inv t

/-- Every move of the host keeps the invariant: writes of RAW and CMD, issues admitted or refused, reads and resets. -/
def Obligations.EveryMoveKeepsInvariant : Prop :=
  ∀ (r : Run) (m : HostMove), Safety.Inv r.machine → Safety.Inv (r.move m).machine

/-- 70_reset_and_hazards.md section I1: an asserted reset sets RESP_VALID to 0, keeps the ROMs, records nothing, and leaves CMD,
RAW and RESP as they stand (log 6: the model's reading of "changes nothing else"); right after the first reset RESP_VALID is 0
and the ROMs hold their contents. -/
def Obligations.ResetClearsRespValid : Prop :=
  State.reset.respValid = false ∧ State.reset.roms = defaultRoms ∧
  ∀ r : Run, (r.move .reset).machine.respValid = false ∧ (r.move .reset).machine.roms = r.machine.roms ∧
    (r.move .reset).machine.cmd = r.machine.cmd ∧ (r.move .reset).machine.raw = r.machine.raw ∧
    (r.move .reset).machine.resp = r.machine.resp ∧
    (r.move .reset).outcomes = r.outcomes ∧ (r.move .reset).observed = r.observed

/-- 10_state.md R23: RESP_VALID is 0 after reset; every admitted request sets it; only reset clears it; no other move changes it;
a host read of RESP while it is 0 records READ_BEFORE_RESPONSE and observes nothing, and while it is 1 it observes, in any run,
the word that the block's RESP gives a reader: RESP itself where its reserved bits are 0 (ReservedRespBitsReadZero says which
word it is in every state). -/
def Obligations.RespValidLifetime : Prop :=
  State.reset.respValid = false ∧
  (∀ s t : State, step s = .next t → t.respValid = true) ∧
  (∀ (r : Run) (m : HostMove), r.machine.respValid = true → m ≠ .reset → (r.move m).machine.respValid = true) ∧
  (∀ (r : Run) (m : HostMove), m ≠ .reset → m ≠ .issue → (r.move m).machine.respValid = r.machine.respValid) ∧
  (∀ r : Run, (r.move .reset).machine.respValid = false) ∧
  (∀ r : Run, (r.move .readRespValid).flagReads = r.flagReads ++ [r.machine.respValid]) ∧
  (∀ r : Run, r.machine.respValid = false →
    Recorded.fault .readBeforeResponse ∈ (r.move .readResp).outcomes ∧ (r.move .readResp).observed = r.observed) ∧
  (∀ r : Run, r.machine.respValid = true →
    (r.move .readResp).outcomes = r.outcomes ∧
    ∃ w : Word, hostReadResp r.machine = .ok w ∧ (r.move .readResp).observed = r.observed ++ [w] ∧
      (respRsvd r.machine.resp = 0#5 → w = r.machine.resp))

/-- 20_memory.md R61, 60_exceptions.md R232: only an issue writes RESP; every other move leaves RESP, and every move but issue and
reset leaves RESP_VALID, so a write of CMD or RAW is seen by the next issued request only. That a reset leaves RESP is the
model's choice, log 6: the spec calls RESP unspecified after a reset. -/
def Obligations.ResponseHeldBetweenIssues : Prop :=
  ∀ (r : Run) (ms : List HostMove), HostMove.issue ∉ ms →
    (r.moves ms).machine.resp = r.machine.resp ∧
    (HostMove.reset ∉ ms → (r.moves ms).machine.respValid = r.machine.respValid)

/-- 20_memory.md R60, R55: no sequence of moves changes a ROM. -/
def Obligations.RomsNeverChange : Prop :=
  ∀ (r : Run) (ms : List HostMove), (r.moves ms).machine.roms = r.machine.roms

/-- 20_memory.md R51: RAW[k] is the byte the host last wrote there; no issue and no read changes it. That no reset changes it is the
model's choice, log 6; that a write which cannot be presented (more than 255 bytes, or above RAW[254]) leaves it is log 10. -/
def Obligations.RawHoldsLastWrite : Prop :=
  ∀ (r : Run) (m : HostMove) (k : Nat), Memory.wf r.machine.raw = true →
    rawRead (r.move m).machine.raw k = (Safety.writesRaw m k).getD (rawRead r.machine.raw k)

/-- 10_state.md R25, 20_memory.md R57, 70_reset_and_hazards.md R267: CMD is the word the host last wrote there, any word, also one
with RSVD other than 0; no write of RAW, no issue and no read changes it, in one move or in many. That no reset changes it is the
model's choice, log 6. -/
def Obligations.CmdHoldsLastWrite : Prop :=
  (∀ (r : Run) (w : Word), (r.move (.writeCmd w)).machine.cmd = w) ∧
  ∀ (r : Run) (ms : List HostMove),
    (r.moves ms).machine.cmd = (ms.filterMap Safety.writesCmd).getLast?.getD r.machine.cmd

/-- 30_encoding.md section E5, 93_implementation_defined.md I11 (log 10): more than 255 bytes, or a position above RAW[254], cannot
be presented; the write is refused, recorded, and changes nothing of the block. -/
def Obligations.UnpresentableWriteRefused : Prop :=
  ∀ (r : Run) (m : HostMove),
    ((∃ bytes, m = .writeRaw bytes ∧ 255 < bytes.length) ∨ (∃ k b, m = .writeRawByte k b ∧ 255 ≤ k)) →
    (r.move m).machine = r.machine ∧ Recorded.refusal .notPresentable ∈ (r.move m).outcomes

/-- 70_reset_and_hazards.md R263 and R267: from any run, whatever went before, a host that writes LEN bytes to RAW, writes CMD and
issues reads one response, the one the instruction gives for these bytes in any state that presents them; nothing is recorded. -/
def Obligations.TransactionReadsItsResponse : Prop :=
  ∀ (r : Run) (i : Instr) (bytes : List Byte), Memory.wf r.machine.raw = true → bytes.length = i.len.toNat →
    ∃ w : Word,
      (r.moves (transaction (encodeCmd i) bytes)).observed = r.observed ++ [w] ∧
      (r.moves (transaction (encodeCmd i) bytes)).outcomes = r.outcomes ∧
      (r.moves (transaction (encodeCmd i) bytes)).machine.resp = w ∧
      ∀ u : State, u.roms = r.machine.roms → Safety.raw u i.len = bytes → Safety.Answers i u w

/-- 60_exceptions.md, model outcomes, and 70_reset_and_hazards.md, end of a run: a recorded outcome stays recorded for the rest of
the run, so a good run was good all along. -/
def Obligations.OutcomesPersist : Prop :=
  ∀ (r : Run) (ms : List HostMove),
    (∀ o ∈ r.outcomes, o ∈ (r.moves ms).outcomes) ∧ (Safety.Good (r.moves ms) → Safety.Good r)

/-- 60_exceptions.md, model outcomes: in any run, the only move that adds a fault to the outcome set is a read of RESP while
RESP_VALID is 0, and the fault it adds is READ_BEFORE_RESPONSE. So no run from reset reaches INTERNAL_INVARIANT, and one that
never reads RESP records no fault. -/
def Obligations.OnlyEarlyReadsFault : Prop :=
  (∀ (r : Run) (m : HostMove) (f : Fault),
    Recorded.fault f ∈ (r.move m).outcomes → Recorded.fault f ∉ r.outcomes →
    f = .readBeforeResponse ∧ m = .readResp ∧ r.machine.respValid = false) ∧
  ∀ ms : List HostMove,
    Recorded.fault .internalInvariant ∉ (Run.start.moves ms).outcomes ∧
    (HostMove.readResp ∉ ms → ∀ f : Fault, Recorded.fault f ∉ (Run.start.moves ms).outcomes)

/-- 60_exceptions.md "Privilege and platform", several instances, which are a list of runs in this model (log 15, DESIGN CHOICE):
after moves at any instances in any order, each instance's run is its own moves' run. So an instance at which the host makes one
transaction, whatever it does at the others meanwhile, observes the one response that the instruction gives for its bytes and
records nothing. -/
def Obligations.InstancesAreIndependent : Prop :=
  ∀ (runs : List Run) (kms : List (Nat × HostMove)) (j : Nat) (r : Run), runs[j]? = some r →
    ∃ q : Run, (movesInstances kms runs)[j]? = some q ∧
      q = r.moves ((kms.filter fun km => km.1 == j).map Prod.snd) ∧
      ∀ (i : Instr) (bytes : List Byte), Memory.wf r.machine.raw = true → bytes.length = i.len.toNat →
        (kms.filter fun km => km.1 == j).map Prod.snd = transaction (encodeCmd i) bytes →
        ∃ w : Word, q.observed = r.observed ++ [w] ∧ q.outcomes = r.outcomes ∧ q.machine.resp = w ∧
          ∀ u : State, u.roms = r.machine.roms → Safety.raw u i.len = bytes → Safety.Answers i u w
end

