-- ==== Sys2Proof/Laws/State.lean ====
section
/-! SUPPORT. One lemma per field per update of State, so that no later proof unfolds a record update. -/

namespace Sys2Proof.Machine

@[simp] theorem consumeRequest_cmd (s : State) : (consumeRequest s).cmd = s.cmd := rfl
@[simp] theorem consumeRequest_raw (s : State) : (consumeRequest s).raw = s.raw := rfl
@[simp] theorem consumeRequest_rawWritten (s : State) : (consumeRequest s).rawWritten = noneWritten := rfl
@[simp] theorem consumeRequest_resp (s : State) : (consumeRequest s).resp = s.resp := rfl
@[simp] theorem consumeRequest_respValid (s : State) : (consumeRequest s).respValid = s.respValid := rfl
@[simp] theorem consumeRequest_roms (s : State) : (consumeRequest s).roms = s.roms := rfl

@[simp] theorem respond_cmd (f : RespFields) (s : State) : (respond f s).cmd = s.cmd := rfl
@[simp] theorem respond_raw (f : RespFields) (s : State) : (respond f s).raw = s.raw := rfl
@[simp] theorem respond_rawWritten (f : RespFields) (s : State) : (respond f s).rawWritten = noneWritten := rfl
@[simp] theorem respond_resp (f : RespFields) (s : State) : (respond f s).resp = encodeResp f := rfl
@[simp] theorem respond_respValid (f : RespFields) (s : State) : (respond f s).respValid = true := rfl
@[simp] theorem respond_roms (f : RespFields) (s : State) : (respond f s).roms = s.roms := rfl

@[simp] theorem raiseError_cmd (e : ErrorCode) (s : State) : (raiseError e s).cmd = s.cmd := rfl
@[simp] theorem raiseError_raw (e : ErrorCode) (s : State) : (raiseError e s).raw = s.raw := rfl
@[simp] theorem raiseError_rawWritten (e : ErrorCode) (s : State) : (raiseError e s).rawWritten = noneWritten := rfl
@[simp] theorem raiseError_resp (e : ErrorCode) (s : State) : (raiseError e s).resp = encodeResp (errorFields e) := rfl
@[simp] theorem raiseError_respValid (e : ErrorCode) (s : State) : (raiseError e s).respValid = true := rfl
@[simp] theorem raiseError_roms (e : ErrorCode) (s : State) : (raiseError e s).roms = s.roms := rfl

@[simp] theorem setRawByte_cmd (k : Nat) (b : Byte) (s : State) : (setRawByte k b s).cmd = s.cmd := rfl
@[simp] theorem setRawByte_raw (k : Nat) (b : Byte) (s : State) : (setRawByte k b s).raw = rawWrite s.raw k b := rfl
@[simp] theorem setRawByte_rawWritten (k : Nat) (b : Byte) (s : State) : (setRawByte k b s).rawWritten = s.rawWritten.setIfInBounds k true := rfl
@[simp] theorem setRawByte_resp (k : Nat) (b : Byte) (s : State) : (setRawByte k b s).resp = s.resp := rfl
@[simp] theorem setRawByte_respValid (k : Nat) (b : Byte) (s : State) : (setRawByte k b s).respValid = s.respValid := rfl
@[simp] theorem setRawByte_roms (k : Nat) (b : Byte) (s : State) : (setRawByte k b s).roms = s.roms := rfl

@[simp] theorem hostWriteCmd_cmd (w : Word) (s : State) : (hostWriteCmd w s).cmd = w := rfl
@[simp] theorem hostWriteCmd_raw (w : Word) (s : State) : (hostWriteCmd w s).raw = s.raw := rfl
@[simp] theorem hostWriteCmd_rawWritten (w : Word) (s : State) : (hostWriteCmd w s).rawWritten = s.rawWritten := rfl
@[simp] theorem hostWriteCmd_resp (w : Word) (s : State) : (hostWriteCmd w s).resp = s.resp := rfl
@[simp] theorem hostWriteCmd_respValid (w : Word) (s : State) : (hostWriteCmd w s).respValid = s.respValid := rfl
@[simp] theorem hostWriteCmd_roms (w : Word) (s : State) : (hostWriteCmd w s).roms = s.roms := rfl

@[simp] theorem hostReset_cmd (s : State) : (hostReset s).cmd = s.cmd := rfl
@[simp] theorem hostReset_raw (s : State) : (hostReset s).raw = s.raw := rfl
@[simp] theorem hostReset_rawWritten (s : State) : (hostReset s).rawWritten = noneWritten := rfl
@[simp] theorem hostReset_resp (s : State) : (hostReset s).resp = s.resp := rfl
@[simp] theorem hostReset_respValid (s : State) : (hostReset s).respValid = false := rfl
@[simp] theorem hostReset_roms (s : State) : (hostReset s).roms = s.roms := rfl

@[simp] theorem placeRequest_cmd (w : Word) (s : State) : (placeRequest w s).cmd = w := rfl
@[simp] theorem placeRequest_raw (w : Word) (s : State) : (placeRequest w s).raw = s.raw := rfl
@[simp] theorem placeRequest_rawWritten (w : Word) (s : State) : (placeRequest w s).rawWritten = markFirst (cmdLen w).toNat s.rawWritten := rfl
@[simp] theorem placeRequest_resp (w : Word) (s : State) : (placeRequest w s).resp = s.resp := rfl
@[simp] theorem placeRequest_respValid (w : Word) (s : State) : (placeRequest w s).respValid = s.respValid := rfl
@[simp] theorem placeRequest_roms (w : Word) (s : State) : (placeRequest w s).roms = s.roms := rfl

@[simp] theorem setRawFrom_cmd (k : Nat) (bs : List Byte) (s : State) : (setRawFrom k bs s).cmd = s.cmd := by
  induction bs generalizing k s with
  | nil => rfl
  | cons b bs ih => simp [setRawFrom, ih]

@[simp] theorem setRawFrom_resp (k : Nat) (bs : List Byte) (s : State) : (setRawFrom k bs s).resp = s.resp := by
  induction bs generalizing k s with
  | nil => rfl
  | cons b bs ih => simp [setRawFrom, ih]

@[simp] theorem setRawFrom_respValid (k : Nat) (bs : List Byte) (s : State) :
    (setRawFrom k bs s).respValid = s.respValid := by
  induction bs generalizing k s with
  | nil => rfl
  | cons b bs ih => simp [setRawFrom, ih]

@[simp] theorem setRawFrom_roms (k : Nat) (bs : List Byte) (s : State) : (setRawFrom k bs s).roms = s.roms := by
  induction bs generalizing k s with
  | nil => rfl
  | cons b bs ih => simp [setRawFrom, ih]

end Sys2Proof.Machine
end

