-- ==== Sys2Proof/Laws/Memory.lean ====
section
/-! SUPPORT. The request buffer RAW: every write keeps the canonical form, a read gives the byte last written (20_memory.md
R51), and the marks of 30_encoding.md R85 (2). -/

namespace Sys2Proof.Machine

theorem rawWfFrom_cons (lo a : Nat) (b : Byte) (rest : RawBuffer) :
    rawWfFrom lo ((a, b) :: rest) = true ↔
      lo ≤ a ∧ a < rawMax ∧ b ≠ rawUnlisted ∧ rawWfFrom (a + 1) rest = true := by
  simp [rawWfFrom, and_assoc]

theorem rawWfFrom_le {lo lo' : Nat} {m : RawBuffer} (h : rawWfFrom lo m = true) (hle : lo' ≤ lo) :
    rawWfFrom lo' m = true := by
  cases m with
  | nil => rfl
  | cons c rest =>
    obtain ⟨a, b⟩ := c
    rw [rawWfFrom_cons] at h ⊢
    exact ⟨hle.trans h.1, h.2⟩

/-- Below the first position a canonical buffer may list, nothing is listed. -/
theorem rawRead_below {lo k : Nat} {m : RawBuffer} (h : rawWfFrom lo m = true) (hk : k < lo) :
    rawRead m k = rawUnlisted := by
  induction m generalizing lo with
  | nil => rfl
  | cons c rest ih =>
    obtain ⟨a, b⟩ := c
    rw [rawWfFrom_cons] at h
    have hne : a ≠ k := by omega
    simp only [rawRead, if_neg hne]
    exact ih h.2.2.2 (by omega)

theorem rawCons_wfFrom {lo k : Nat} {b : Byte} {m : RawBuffer} (h : rawWfFrom (k + 1) m = true) (hlo : lo ≤ k)
    (hk : k < rawMax) : rawWfFrom lo (rawCons k b m) = true := by
  unfold rawCons
  split
  · exact rawWfFrom_le h (by omega)
  · rw [rawWfFrom_cons]
    exact ⟨hlo, hk, ‹_›, h⟩

theorem rawWrite_wfFrom {lo k : Nat} {b : Byte} {m : RawBuffer} (h : rawWfFrom lo m = true) (hlo : lo ≤ k)
    (hk : k < rawMax) : rawWfFrom lo (rawWrite m k b) = true := by
  induction m generalizing lo with
  | nil => exact rawCons_wfFrom rfl hlo hk
  | cons c rest ih =>
    obtain ⟨a, x⟩ := c
    have h' := (rawWfFrom_cons _ _ _ _).mp h
    simp only [rawWrite]
    split
    · subst a
      exact rawCons_wfFrom h'.2.2.2 hlo hk
    · split
      · exact rawCons_wfFrom ((rawWfFrom_cons _ _ _ _).mpr ⟨by omega, h'.2⟩) hlo hk
      · rw [rawWfFrom_cons]
        exact ⟨h'.1, h'.2.1, h'.2.2.1, ih h'.2.2.2 (by omega)⟩

/-- A write of a position of RAW keeps the canonical form. -/
theorem rawWrite_wf {m : RawBuffer} {k : Nat} (b : Byte) (h : Memory.wf m = true) (hk : k < rawMax) :
    Memory.wf (rawWrite m k b) = true := rawWrite_wfFrom h (Nat.zero_le k) hk

theorem rawRead_rawCons {k : Nat} {b : Byte} {m : RawBuffer} (h : rawWfFrom (k + 1) m = true) (j : Nat) :
    rawRead (rawCons k b m) j = if k = j then b else rawRead m j := by
  unfold rawCons
  split
  · split
    · subst j
      rw [rawRead_below h (Nat.lt_succ_self k)]
      exact Eq.symm ‹_›
    · rfl
  · rfl

/-- A read after a write: the byte written at its position, and every other position as before (R51). -/
theorem rawRead_rawWriteFrom {lo k : Nat} {b : Byte} {m : RawBuffer} (h : rawWfFrom lo m = true) (j : Nat) :
    rawRead (rawWrite m k b) j = if k = j then b else rawRead m j := by
  induction m generalizing lo with
  | nil => exact rawRead_rawCons rfl j
  | cons c rest ih =>
    obtain ⟨a, x⟩ := c
    have h' := (rawWfFrom_cons _ _ _ _).mp h
    simp only [rawWrite]
    split
    · subst a
      rw [rawRead_rawCons h'.2.2.2]
      by_cases hj : k = j <;> simp [rawRead, hj]
    · split
      · rw [rawRead_rawCons ((rawWfFrom_cons _ _ _ _).mpr ⟨by omega, h'.2⟩)]
      · simp only [rawRead]
        by_cases haj : a = j
        · subst haj
          have hka : ¬ k = a := fun e => ‹¬ a = k› e.symm
          simp [hka]
        · simp only [if_neg haj]
          exact ih h'.2.2.2

theorem rawRead_rawWrite {k : Nat} {b : Byte} {m : RawBuffer} (h : Memory.wf m = true) (j : Nat) :
    rawRead (rawWrite m k b) j = if k = j then b else rawRead m j := rawRead_rawWriteFrom h j

/-- Writing bytes from position k on keeps the canonical form. -/
theorem setRawFrom_wf {k : Nat} {bs : List Byte} {s : State} (h : Memory.wf s.raw = true)
    (hk : k + bs.length ≤ rawMax) : Memory.wf (setRawFrom k bs s).raw = true := by
  induction bs generalizing k s with
  | nil => exact h
  | cons b bs ih =>
    have hk' : k + 1 + bs.length ≤ rawMax := by simp only [List.length_cons] at hk; omega
    exact ih (by simpa using rawWrite_wf b h (by omega)) hk'

/-- What RAW reads as after bytes are written from position k on. -/
theorem rawRead_setRawFrom {k : Nat} {bs : List Byte} {s : State} (h : Memory.wf s.raw = true)
    (hk : k + bs.length ≤ rawMax) (j : Nat) :
    rawRead (setRawFrom k bs s).raw j = if k ≤ j then (bs[j - k]?).getD (rawRead s.raw j) else rawRead s.raw j := by
  induction bs generalizing k s with
  | nil => simp [setRawFrom]
  | cons b bs ih =>
    have hk' : k + 1 + bs.length ≤ rawMax := by simp only [List.length_cons] at hk; omega
    have hw : Memory.wf (setRawByte k b s).raw = true := by simpa using rawWrite_wf b h (by omega)
    simp only [setRawFrom]
    rw [ih hw hk']
    simp only [setRawByte_raw, rawRead_rawWrite h]
    rcases Nat.lt_trichotomy k j with hlt | rfl | hgt
    · obtain ⟨d, rfl⟩ : ∃ d, j = k + 1 + d := ⟨j - (k + 1), by omega⟩
      have e1 : k + 1 + d - (k + 1) = d := by omega
      have e2 : k + 1 + d - k = d + 1 := by omega
      have hne : ¬ k = k + 1 + d := by omega
      simp [e1, e2, hne, show k ≤ k + 1 + d by omega]
    · simp
    · simp [show ¬ k ≤ j by omega, show ¬ k + 1 ≤ j by omega, show ¬ k = j by omega]

theorem allWritten_iff (n : Nat) (marks : Vector Bool rawMax) :
    allWritten n marks = true ↔ ∀ k : Fin rawMax, k.val < n → marks[k] = true := by
  unfold allWritten
  rw [List.all_eq_true]
  constructor
  · intro h k hk
    apply h
    rw [List.mem_take_iff_getElem]
    exact ⟨k.val, by simp; omega, by simp⟩
  · intro h x hx
    rw [List.mem_take_iff_getElem] at hx
    obtain ⟨i, hi, rfl⟩ := hx
    have hi' : i < n ∧ i < rawMax := by simpa using hi
    simpa using h ⟨i, hi'.2⟩ hi'.1

theorem setRawFrom_rawWritten (k : Nat) (bs : List Byte) (s : State) (j : Fin rawMax) :
    (setRawFrom k bs s).rawWritten[j] = (decide (k ≤ j.val ∧ j.val < k + bs.length) || s.rawWritten[j]) := by
  induction bs generalizing k s with
  | nil =>
    have h : ¬ (k ≤ j.val ∧ j.val < k + ([] : List Byte).length) := by simp
    rw [decide_eq_false h]
    rfl
  | cons b bs ih =>
    simp only [setRawFrom, ih, setRawByte_rawWritten, Fin.getElem_fin, Vector.getElem_setIfInBounds, List.length_cons]
    by_cases h : k = j.val
    · simp [h]
    · have e : (k + 1 ≤ j.val ∧ j.val < k + 1 + bs.length) ↔ (k ≤ j.val ∧ j.val < k + (bs.length + 1)) := by omega
      rw [if_neg h, decide_eq_decide.mpr e]

/-- `markFirst n` marks RAW[0..n-1] and keeps the other marks. -/
theorem markFirst_getElem (n : Nat) (marks : Vector Bool rawMax) (j : Fin rawMax) :
    (markFirst n marks)[j] = (decide (j.val < n) || marks[j]) := by
  have hj := j.isLt
  simp only [markFirst, Fin.getElem_fin, Vector.getElem_mk, List.getElem_toArray, List.getElem_append,
    List.length_replicate, List.getElem_replicate, List.getElem_drop, Vector.getElem_toList]
  by_cases h : j.val < n
  · simp [h, hj]
  · have hn : min n rawMax = n := by omega
    have e : n + (j.val - n) = j.val := by omega
    simp [h, hn, e]

end Sys2Proof.Machine
end

