-- ==== Sys2Proof/Laws/Operations.lean ====
section
/-! SUPPORT. What the shared operations and the two instructions can do, said once: the datapath always answers, every
instruction answers one response, and a step is a refusal or the fetched instruction. -/

namespace Sys2Proof.Machine

theorem raiseError_eq_respond (e : ErrorCode) (s : State) : raiseError e s = respond (errorFields e) s := rfl

theorem remapF_of_mod (c : Nat) : remapF (c % 3) = .ok (if c % 3 = 0 then 0 else if c % 3 = 1 then 2 else 1) := by
  have h : c % 3 = 0 ∨ c % 3 = 1 ∨ c % 3 = 2 := by omega
  rcases h with h | h | h <;> simp [h, remapF]

theorem remapG_of_le (y : Nat) (h : y ≤ 4) :
    remapG y = .ok (if y = 0 ∨ y = 3 then 0 else if y = 1 ∨ y = 4 then 2 else 1) := by
  have h : y = 0 ∨ y = 1 ∨ y = 2 ∨ y = 3 ∨ y = 4 := by omega
  rcases h with rfl | rfl | rfl | rfl | rfl <;> rfl

theorem lookupChk_of_lt (roms : Roms) (v : Nat) (h : v < nV) : lookupChk roms v = .ok roms.reverse[v] := by
  simp [lookupChk, reverseAt, h]

/-- The datapath never faults (43_modular_adder_tree.md R176), and every stage has the value its rule gives. -/
theorem datapath_ok (roms : Roms) (d : List Nat) :
    ∃ p : Datapath, datapath roms d = .ok p ∧
      p.c1 = accC1 roms d ∧ p.c2 = accC2 roms d ∧ p.c3 = accC3 roms d ∧ p.c4 = accC4 roms d ∧
      p.q1 = p.c1 % 2 ∧ p.q2 = p.c2 % 2 ∧
      p.r1 = (if p.c4 % 3 = 0 then 0 else if p.c4 % 3 = 1 then 2 else 1) ∧
      p.s = p.c3 % 3 + p.r1 ∧
      p.r2 = (if p.s = 0 ∨ p.s = 3 then 0 else if p.s = 1 ∨ p.s = 4 then 2 else 1) ∧
      p.v = p.q1 + 2 * p.q2 + 4 * p.r1 + 12 * p.r2 ∧
      ∃ h : p.v < 36, p.chk = roms.reverse[p.v] := by
  have hr1 : ∀ c : Nat, (if c % 3 = 0 then 0 else if c % 3 = 1 then 2 else 1) ≤ 2 := by
    intro c; split <;> [omega; split <;> omega]
  have hr2 : ∀ y : Nat, (if y = 0 ∨ y = 3 then 0 else if y = 1 ∨ y = 4 then 2 else 1) ≤ 2 := by
    intro y; split <;> [omega; split <;> omega]
  have hs : sumS (accC3 roms d) (if accC4 roms d % 3 = 0 then 0 else if accC4 roms d % 3 = 1 then 2 else 1) ≤ 4 := by
    have := hr1 (accC4 roms d); unfold sumS; omega
  have hv : ∀ y, packV (accC1 roms d % 2) (accC2 roms d % 2)
      (if accC4 roms d % 3 = 0 then 0 else if accC4 roms d % 3 = 1 then 2 else 1)
      (if y = 0 ∨ y = 3 then 0 else if y = 1 ∨ y = 4 then 2 else 1) < nV := by
    intro y
    have h1 := hr1 (accC4 roms d)
    have h2 := hr2 y
    simp only [packV, vR2Weight, nV]
    omega
  unfold datapath
  simp only [reduceQ1, reduceQ2, remapF_of_mod, remapG_of_le _ hs, lookupChk_of_lt _ _ (hv _)]
  exact ⟨_, rfl, rfl, rfl, rfl, rfl, rfl, rfl, rfl, rfl, rfl, rfl, hv _, rfl⟩

/-- CHECKDIGIT raises INVALID_CHARACTER or gives a character; it never faults. -/
theorem checkDigit_cases (roms : Roms) (pl : List Byte) :
    (lookup roms pl = none ∧ checkDigit roms pl = .error (.raised .invalidCharacter)) ∨
    ∃ es p, lookup roms pl = some es ∧ datapath roms (flatten es) = .ok p ∧ checkDigit roms pl = .ok p.chk := by
  unfold checkDigit
  cases h : lookup roms pl with
  | none => exact .inl ⟨rfl, rfl⟩
  | some es =>
    obtain ⟨p, hp, -⟩ := datapath_ok roms (flatten es)
    exact .inr ⟨es, p, rfl, hp, by simp [hp]⟩

/-- COMPUTE's three ends, in the order of 60_exceptions.md R224. -/
theorem computeFields_cases (roms : Roms) (x : List Byte) :
    (((normalise x).length ≠ 14 ∧ (normalise x).length ≠ 15) ∧
      computeFields roms x = .error (.raised .invalidLength)) ∨
    (((normalise x).length = 14 ∨ (normalise x).length = 15) ∧
      ((lookup roms (payload (normalise x)) = none ∧
          computeFields roms x = .error (.raised .invalidCharacter)) ∨
       ∃ es p, lookup roms (payload (normalise x)) = some es ∧ datapath roms (flatten es) = .ok p ∧
          computeFields roms x = .ok (okChar p.chk))) := by
  unfold computeFields lengthGateCompute
  by_cases h : (normalise x).length ≠ nPayload ∧ (normalise x).length ≠ nId
  · exact .inl ⟨h, by simp only [if_pos h]⟩
  · refine .inr ⟨by simp only [nPayload, nId] at h; omega, ?_⟩
    simp only [if_neg h]
    rcases checkDigit_cases roms (payload (normalise x)) with ⟨hl, hc⟩ | ⟨es, p, hl, hp, hc⟩
    · exact .inl ⟨hl, by simp only [hc]⟩
    · exact .inr ⟨es, p, hl, hp, by simp only [hc]⟩

/-- VERIFY's three ends. -/
theorem verifyFields_cases (roms : Roms) (x : List Byte) :
    ((normalise x).length ≠ 15 ∧ verifyFields roms x = .error (.raised .invalidLength)) ∨
    ((normalise x).length = 15 ∧
      ((lookup roms (payload (normalise x)) = none ∧
          verifyFields roms x = .error (.raised .invalidCharacter)) ∨
       ∃ es p, lookup roms (payload (normalise x)) = some es ∧ datapath roms (flatten es) = .ok p ∧
          verifyFields roms x = .ok (okMatch (p.chk == trailing (normalise x))))) := by
  unfold verifyFields lengthGateVerify
  by_cases h : (normalise x).length ≠ nId
  · exact .inl ⟨h, by simp only [if_pos h]⟩
  · refine .inr ⟨by simp only [nId] at h; omega, ?_⟩
    simp only [if_neg h]
    rcases checkDigit_cases roms (payload (normalise x)) with ⟨hl, hc⟩ | ⟨es, p, hl, hp, hc⟩
    · exact .inl ⟨hl, by simp only [hc]⟩
    · exact .inr ⟨es, p, hl, hp, by simp only [hc]; rfl⟩

/-- The response fields an instruction gives for a raw identifier. -/
def instrFields : Instr → Roms → List Byte → Except Abort RespFields
  | .compute _, roms, x => computeFields roms x
  | .verify _, roms, x => verifyFields roms x

theorem exec_eq_finish (i : Instr) (s : State) : exec i s = finish (instrFields i s.roms (rawString s i.len)) s := by
  cases i <;> rfl

theorem instrFields_no_fault (i : Instr) (roms : Roms) (x : List Byte) :
    ∃ f : RespFields, (instrFields i roms x = .ok f ∨ ∃ e, instrFields i roms x = .error (.raised e) ∧ f = errorFields e) := by
  cases i with
  | compute len =>
    rcases computeFields_cases roms x with ⟨-, h⟩ | ⟨-, ⟨-, h⟩ | ⟨es, p, -, -, h⟩⟩
    · exact ⟨_, .inr ⟨_, h, rfl⟩⟩
    · exact ⟨_, .inr ⟨_, h, rfl⟩⟩
    · exact ⟨_, .inl h⟩
  | verify len =>
    rcases verifyFields_cases roms x with ⟨-, h⟩ | ⟨-, ⟨-, h⟩ | ⟨es, p, -, -, h⟩⟩
    · exact ⟨_, .inr ⟨_, h, rfl⟩⟩
    · exact ⟨_, .inr ⟨_, h, rfl⟩⟩
    · exact ⟨_, .inl h⟩

/-- Every instruction answers, in every state, with one response (44_operations.md R202, R204). -/
theorem exec_responds (i : Instr) (s : State) :
    ∃ f : RespFields, exec i s = .next (respond f s) ∧
      (instrFields i s.roms (rawString s i.len) = .ok f ∨
        ∃ e, instrFields i s.roms (rawString s i.len) = .error (.raised e) ∧ f = errorFields e) := by
  obtain ⟨f, h | ⟨e, h, rfl⟩⟩ := instrFields_no_fault i s.roms (rawString s i.len)
  · exact ⟨f, by rw [exec_eq_finish, h]; rfl, .inl h⟩
  · exact ⟨_, by rw [exec_eq_finish, h]; rfl, .inr ⟨e, h, rfl⟩⟩

/-- What a step can do: refuse an ill-formed request, or run the instruction fetched. -/
theorem step_cases (s : State) :
    (∃ why, fetchRequest s = .error why ∧ step s = .refused (.refusedRequest why)) ∨
    ∃ i, fetchRequest s = .ok i ∧ step s = exec i s := by
  unfold step
  cases h : fetchRequest s with
  | error why => exact .inl ⟨why, rfl, rfl⟩
  | ok i => exact .inr ⟨i, rfl, rfl⟩

/-- When the fetch gives an instruction (30_encoding.md R85). -/
theorem fetchRequest_ok {s : State} {i : Instr} :
    fetchRequest s = .ok i ↔ decodeCmd s.cmd = .ok i ∧ allWritten i.len.toNat s.rawWritten = true := by
  unfold fetchRequest
  cases h : decodeCmd s.cmd with
  | error e => simp
  | ok j =>
    by_cases hw : allWritten j.len.toNat s.rawWritten = true
    · simp only [hw, if_true, Except.ok.injEq]
      exact ⟨fun e => ⟨e, e ▸ hw⟩, fun e => e.1⟩
    · simp only [hw]
      refine ⟨fun e => by simp at e, fun e => ?_⟩
      obtain ⟨e1, e2⟩ := e
      cases e1
      exact absurd e2 hw

end Sys2Proof.Machine
end

