-- ==== Sys2Proof/Laws/HostMoves.lean ====
section
/-! SUPPORT. What a host move can do, said once: recording an outcome, reading RESP, and an issue (70_reset_and_hazards.md R267,
60_exceptions.md R233). -/

namespace Sys2Proof.Machine

@[simp] theorem record_machine (o : Recorded) (r : Run) : (r.record o).machine = r.machine := rfl
@[simp] theorem record_observed (o : Recorded) (r : Run) : (r.record o).observed = r.observed := rfl
@[simp] theorem record_flagReads (o : Recorded) (r : Run) : (r.record o).flagReads = r.flagReads := rfl

/-- The outcome set after an outcome is recorded. -/
theorem mem_record (x o : Recorded) (r : Run) : x ∈ (r.record o).outcomes ↔ x ∈ r.outcomes ∨ x = o := by
  unfold Run.record
  by_cases h : o ∈ r.outcomes
  · simp only [if_pos h]
    exact ⟨.inl, fun hx => hx.elim id fun e => e ▸ h⟩
  · simp only [if_neg h, List.mem_append, List.mem_singleton]

@[simp] theorem moves_nil (r : Run) : r.moves [] = r := rfl
@[simp] theorem moves_cons (m : HostMove) (ms : List HostMove) (r : Run) : r.moves (m :: ms) = (r.move m).moves ms := rfl
@[simp] theorem movesInstances_nil (runs : List Run) : movesInstances [] runs = runs := rfl
@[simp] theorem movesInstances_cons (km : Nat × HostMove) (kms : List (Nat × HostMove)) (runs : List Run) :
    movesInstances (km :: kms) runs = movesInstances kms (moveInstance km.1 km.2 runs) := rfl

/-- A read of RESP does not change the block. -/
@[simp] theorem readResp_machine (r : Run) : r.readResp.machine = r.machine := by
  unfold Run.readResp
  split <;> rfl

/-- A step answers with one response, or refuses the request. -/
theorem step_responds (s : State) :
    (∃ f : RespFields, step s = .next (respond f s)) ∨
    ∃ why, fetchRequest s = .error why ∧ step s = .refused (.refusedRequest why) := by
  rcases step_cases s with h | ⟨i, -, h⟩
  · exact .inr h
  · obtain ⟨f, hf, -⟩ := exec_responds i s
    exact .inl ⟨f, h.trans hf⟩

/-- What an issue does to the run: a response, or a recorded refusal with the request used up. -/
theorem issue_cases (r : Run) :
    (∃ f : RespFields, r.move .issue = { r with machine := respond f r.machine }) ∨
    ∃ why, r.move .issue = { r with machine := consumeRequest r.machine }.record (.refusal (.refusedRequest why)) := by
  rcases step_responds r.machine with ⟨f, h⟩ | ⟨why, -, h⟩
  · exact .inl ⟨f, by simp only [Run.move, h, Run.take]⟩
  · exact .inr ⟨why, by simp only [Run.move, h, Run.take]⟩

end Sys2Proof.Machine
end

