-- ==== Sys2Proof/Laws/PerInstr.lean ====
section
/-! SUPPORT. Facts of each instruction as syntax: the fields of its CMD word (30_encoding.md R81, R84). -/

namespace Sys2Proof.Laws.CmdWord

/-- The CMD word of an instruction has RSVD = 0 and carries its LEN (R81). -/
def Statement (i : Instr) : Prop := cmdRsvd (encodeCmd i) = 0#7 ∧ cmdLen (encodeCmd i) = i.len

theorem compute (len : Byte) : Statement (.compute len) := by
  unfold Statement; revert len; decide +kernel

theorem verify (len : Byte) : Statement (.verify len) := by
  unfold Statement; revert len; decide +kernel

end Sys2Proof.Laws.CmdWord
end

