-- ==== Sys2Proof/Laws/Word.lean ====
section
/-! SUPPORT. The 16-bit words as numbers: two bytes put together, and the value of each field (30_encoding.md R81, R82). -/

namespace Sys2Proof

/-- A word made of a high and a low byte, as a number. -/
theorem toNat_word_append (hi lo : Byte) : BitVec.toNat (hi ++ lo : Word) = 256 * hi.toNat + lo.toNat := by
  have h : (hi ++ lo : BitVec (8 + 8)).toNat = 256 * hi.toNat + lo.toNat := by
    rw [BitVec.toNat_append, ← Nat.shiftLeft_add_eq_or_of_lt lo.isLt, Nat.shiftLeft_eq]
    omega
  exact h

theorem toNat_cmdOp (w : Word) : (cmdOp w).toNat = w.toNat % 2 := by simp [cmdOp]

theorem toNat_cmdRsvd (w : Word) : (cmdRsvd w).toNat = w.toNat / 2 % 128 := by
  simp [cmdRsvd, Nat.shiftRight_eq_div_pow]

theorem toNat_cmdLen (w : Word) : (cmdLen w).toNat = w.toNat / 256 := by
  have h := w.isLt
  simp only [cmdLen, BitVec.extractLsb'_toNat, Nat.shiftRight_eq_div_pow]
  omega

namespace Machine

theorem toNat_respStatus (w : Word) : (respStatus w).toNat = w.toNat % 4 := by simp [respStatus]

theorem toNat_respMatch (w : Word) : (respMatch w).toNat = w.toNat / 4 % 2 := by
  simp [respMatch, Nat.shiftRight_eq_div_pow]

theorem toNat_respRsvd (w : Word) : (respRsvd w).toNat = w.toNat / 8 % 32 := by
  simp [respRsvd, Nat.shiftRight_eq_div_pow]

theorem toNat_respChar (w : Word) : (respChar w).toNat = w.toNat / 256 := toNat_cmdLen w

end Machine

end Sys2Proof
end

