-- ==== Sys2Proof/Tests/Slice0.lean ====
section
/-! SUPPORT. Tests on small states, with results from the spec's tables and examples (95_test_vectors.md), and for every
statement with hypotheses a witness that meets them. -/

namespace Sys2Proof.Tests

open Sys2Proof.Machine

/-- The block after the host wrote `bytes` to RAW and `w` to CMD. -/
def asked (w : Word) (bytes : List Byte) : State := hostWriteCmd w (setRawFrom 0 bytes State.reset)

/-- RESP of a next state. -/
def respOf : Host.Outcome State Fault Refusal → Option Word
  | .next t => some t.resp
  | .fault _ => none
  | .refused _ => none

/-- "DE83DUIEN83QGZ" (95_test_vectors.md L1.1). -/
def de83 : List Byte :=
  [0x44#8, 0x45#8, 0x38#8, 0x33#8, 0x44#8, 0x55#8, 0x49#8, 0x45#8, 0x4E#8, 0x38#8, 0x33#8, 0x51#8, 0x47#8, 0x5A#8]

/-- "de-83d-uien83-qgzd" (L1.3). -/
def de83Raw : List Byte :=
  [0x64#8, 0x65#8, 0x2D#8, 0x38#8, 0x33#8, 0x64#8, 0x2D#8, 0x75#8, 0x69#8, 0x65#8, 0x6E#8, 0x38#8, 0x33#8, 0x2D#8, 0x71#8,
    0x67#8, 0x7A#8, 0x64#8]

/-- "DE83DUIEN83QG!" with an illegal byte at position 13 (L2.2.26). -/
def badLast : List Byte := de83.set 13 0x21#8

/-! Decoding, from words written out as LEN, RSVD, OP (30_encoding.md R81, R84, R90). -/

theorem test_decode_compute : decodeCmd 0b00001110_0000000_0#16 = .ok (.compute 14#8) := by decide +kernel
theorem test_decode_verify : decodeCmd 0b00001111_0000000_1#16 = .ok (.verify 15#8) := by decide +kernel
theorem test_decode_reserved : decodeCmd 0b00001110_0000001_0#16 = .error .reservedBits := by decide +kernel
theorem test_encode_verify : encodeBytes (.verify 15#8) = [0x01#8, 0x0F#8] := by decide +kernel
theorem test_first_step_after_reset :
    respOf (step (State.reset.withFetchWord 16 0x0E01)) = some 0x0001#16 := by decide +kernel

/-! Operations. -/

/-- L1.1: COMPUTE "DE83DUIEN83QGZ" answers OK 'D'. -/
theorem test_compute_example : respOf (step (asked 0x0E00#16 de83)) = some 0x4400#16 := by decide +kernel
/-- L2.3.10: COMPUTE "01234567890123" reaches s = 4 and v = 35, OK 'Z'. -/
theorem test_compute_top_of_reverse :
    respOf (step (asked 0x0E00#16 [0x30#8, 0x31#8, 0x32#8, 0x33#8, 0x34#8, 0x35#8, 0x36#8, 0x37#8, 0x38#8, 0x39#8, 0x30#8,
      0x31#8, 0x32#8, 0x33#8])) = some 0x5A00#16 := by decide +kernel
/-- L1.3: VERIFY "de-83d-uien83-qgzd" answers OK true. -/
theorem test_verify_example : respOf (step (asked 0x1201#16 de83Raw)) = some 0x0004#16 := by decide +kernel
/-- L2.4.11: VERIFY "DE83DUIEN83QGZ " answers OK false. -/
theorem test_verify_trailing_space :
    respOf (step (asked 0x0F01#16 (de83 ++ [0x20#8]))) = some 0x0000#16 := by decide +kernel
/-- L3.3: the host reads RESP before a response, issues CMD = 0x0E02, and then a well-formed request. -/
theorem test_run_refusal_then_answer :
    let r := Run.start.moves ([.reset, .readRespValid, .readResp, .writeRaw (List.replicate 14 0x30#8), .writeCmd 0x0E02#16,
      .issue] ++ transaction 0x0E00#16 (List.replicate 14 0x30#8) ++ [.reset, .readRespValid])
    r.observed = [0x3000#16] ∧ r.flagReads = [false, false] ∧
      r.outcomes = [.fault .readBeforeResponse, .refusal (.refusedRequest .reservedBits)] := by decide +kernel
/-- 30_encoding.md R90's example, and the escapes. -/
theorem test_assemble_example :
    assemble ("VERIFY \"DE83DUIEN83QGZD\"".toList) = some ⟨true, de83 ++ [0x44#8]⟩ ∧
    (Request.instr ⟨true, de83 ++ [0x44#8]⟩).map encodeCmd = some 0x0F01#16 ∧
    assemble ("COMPUTE \"x\\x80\\\"\\\\y\" ; note".toList) = some ⟨false, [0x78#8, 0x80#8, 0x22#8, 0x5C#8, 0x79#8]⟩ ∧
    assemble ("COMPUTE \"x".toList) = none := by decide +kernel

/-! Ill-formed data, one for each check of WellFormed. -/

/-- 'A' has no entry: R138 (a). -/
theorem test_illformed_codes : ¬ Roms.WellFormed { defaultRoms with alphabet := defaultAlphabet.set 0x41 none } := by
  intro h
  exact absurd (h.codes 0x41#8) (by decide +kernel)
/-- '1' has the entry of '0': R138 (c), one-to-one. -/
theorem test_illformed_oneToOne :
    ¬ Roms.WellFormed { defaultRoms with alphabet := defaultAlphabet.set 0x31 (some ⟨0, 0, 0, 0⟩) } := by
  intro h
  exact absurd (h.oneToOne 0x30#8 0x31#8 ⟨0, 0, 0, 0⟩ (by decide +kernel) (by decide +kernel)) (by decide)
/-- No byte has the entry (0,0,0,1): R138 (c), onto. -/
theorem test_illformed_onto :
    ¬ Roms.WellFormed { defaultRoms with alphabet := defaultAlphabet.set 0x31 (some ⟨0, 0, 0, 0⟩) } := by
  intro h
  exact absurd (h.onto ⟨0, 0, 0, 1⟩) (by decide +kernel)
/-- REVERSE[0] is '1': R179. -/
theorem test_illformed_inverse : ¬ Roms.WellFormed { defaultRoms with reverse := defaultReverse.set 0 0x31#8 } := by
  intro h
  exact absurd (h.inverse 0) (by decide +kernel)
theorem test_illformed_raw_too_long : presentable (List.replicate 256 0x41#8) = false := by decide +kernel
theorem test_illformed_response_ok : RespFields.legal ⟨.ok, true, 0x41#8⟩ = false := by decide
theorem test_illformed_response_length : RespFields.legal ⟨.invalidLength, true, 0x00#8⟩ = false := by decide
theorem test_illformed_response_character : RespFields.legal ⟨.invalidCharacter, false, 0x41#8⟩ = false := by decide

/-! Witnesses. -/

/-- The default tables meet every constraint (41_vector_lookup.md R138, 43_modular_adder_tree.md R179). -/
theorem witness_tables : defaultRoms.WellFormed where
  codes := by decide +kernel
  oneToOne := by
    have key : ∀ a : Byte, (match alphabetAt defaultRoms a with
        | none => true
        | some e => decide (a = reverseAt defaultRoms
            (Fin.ofNat 36 (e.m0.val + 2 * e.m1.val + 4 * e.m2.val + 12 * e.m3.val)))) = true := by decide +kernel
    intro a b e ha hb
    have ka := key a
    have kb := key b
    unfold alphabetAt at ka kb
    rw [ha] at ka
    rw [hb] at kb
    exact (of_decide_eq_true ka).trans (of_decide_eq_true kb).symm
  onto := by
    have key : ∀ (a b : Fin 2) (c d : Fin 3), alphabetAt defaultRoms
        (reverseAt defaultRoms (Fin.ofNat 36 (a.val + 2 * b.val + 4 * c.val + 12 * d.val))) = some ⟨a, b, c, d⟩ := by
      decide +kernel
    rintro ⟨a, b, c, d⟩
    exact ⟨_, key a b c d⟩
  inverse := by decide +kernel

/-- The vectors of "DE83DUIEN83QGZ" (95_test_vectors.md, trace of L1.1). -/
def de83Vec (i : Fin 14) : CharVec :=
  (#v[⟨0, 1, 1, 1⟩, ⟨0, 1, 1, 2⟩, ⟨0, 0, 2, 2⟩, ⟨0, 0, 1, 0⟩, ⟨0, 1, 1, 1⟩, ⟨1, 1, 1, 0⟩, ⟨1, 0, 0, 0⟩, ⟨0, 1, 1, 2⟩,
    ⟨1, 0, 1, 2⟩, ⟨0, 0, 2, 2⟩, ⟨0, 0, 1, 0⟩, ⟨1, 0, 2, 2⟩, ⟨0, 1, 2, 1⟩, ⟨1, 1, 2, 2⟩] : Vector CharVec 14)[i]

/-- The normalised identifier that a state presents. -/
abbrev norm (s : State) (len : Byte) : List Byte := Safety.normal (Safety.raw s len)

theorem witness_StepRunsDecodedInstruction :
    decodeBytes (bytesOfWord (asked 0x0E00#16 de83).cmd) = .ok (.compute 14#8, []) ∧
    Safety.WrittenUpTo (Instr.compute 14#8).len.toNat (asked 0x0E00#16 de83) ∧
    decodeBytes (bytesOfWord (asked 0x1201#16 de83Raw).cmd) = .ok (.verify 18#8, []) ∧
    Safety.WrittenUpTo (Instr.verify 18#8).len.toNat (asked 0x1201#16 de83Raw) := by
  unfold Safety.WrittenUpTo
  decide +kernel

/-- A well-formed request; one with RSVD = 1; one with a byte of RAW short. -/
theorem witness_IssueAdmitsExactlyWellFormed :
    Safety.WellFormedRequest (asked 0x0E00#16 de83) ∧ ¬ Safety.WellFormedRequest (asked 0x0E02#16 de83) ∧
    ¬ Safety.WellFormedRequest (asked 0x0F00#16 de83) := by
  unfold Safety.WellFormedRequest Safety.WrittenUpTo
  decide +kernel

theorem hasVectors_de83 (rest : List Byte) : Safety.HasVectors defaultRoms (de83 ++ rest) de83Vec := by
  have key : ∀ i : Fin 14, de83[i.val]? = some (de83[i.val]'i.isLt) ∧
      alphabetAt defaultRoms (de83[i.val]'i.isLt) = some (de83Vec i) := by decide +kernel
  intro i
  exact ⟨_, by rw [List.getElem?_append_left i.isLt]; exact (key i).1, (key i).2⟩

theorem badPayload_badLast (rest : List Byte) : Safety.BadPayload defaultRoms (badLast ++ rest) :=
  ⟨13, 0x21#8, rfl, by decide +kernel⟩

theorem norm_de83 : norm (asked 0x0E00#16 de83) 14#8 = de83 := by decide +kernel
theorem norm_de83Raw : norm (asked 0x1201#16 de83Raw) 18#8 = de83 ++ [0x44#8] := by decide +kernel

/-- Clause by clause, at NLEN 13, 14, 15 and 16. -/
theorem witness_ComputeAnswersCheckCharacter :
    (norm (asked 0x0D00#16 de83) 13#8).length = 13 ∧
    (norm (asked 0x1000#16 (de83 ++ [0x58#8, 0x58#8])) 16#8).length = 16 ∧
    (norm (asked 0x0E00#16 badLast) 14#8 = badLast ++ [] ∧
      norm (asked 0x0F00#16 (badLast ++ [0x44#8])) 15#8 = badLast ++ [0x44#8] ∧
      ∀ rest, Safety.BadPayload defaultRoms (badLast ++ rest)) ∧
    (norm (asked 0x0E00#16 de83) 14#8 = de83 ++ [] ∧
      norm (asked 0x1200#16 de83Raw) 18#8 = de83 ++ [0x44#8] ∧
      ∀ rest, Safety.HasVectors defaultRoms (de83 ++ rest) de83Vec) :=
  ⟨by decide +kernel, by decide +kernel, ⟨by decide +kernel, by decide +kernel, badPayload_badLast⟩,
    by decide +kernel, by decide +kernel, hasVectors_de83⟩

theorem witness_VerifyAnswersMatch :
    (norm (asked 0x0E01#16 de83) 14#8).length = 14 ∧
    (norm (asked 0x1001#16 (de83 ++ [0x58#8, 0x58#8])) 16#8).length = 16 ∧
    (norm (asked 0x0F01#16 (badLast ++ [0x44#8])) 15#8 = badLast ++ [0x44#8] ∧
      ∀ rest, Safety.BadPayload defaultRoms (badLast ++ rest)) ∧
    (norm (asked 0x1201#16 de83Raw) 18#8 = de83 ++ [0x44#8] ∧
      norm (asked 0x0F01#16 (de83 ++ [0x45#8])) 15#8 = de83 ++ [0x45#8] ∧
      ∀ rest, Safety.HasVectors defaultRoms (de83 ++ rest) de83Vec) :=
  ⟨by decide +kernel, by decide +kernel, ⟨by decide +kernel, badPayload_badLast⟩, by decide +kernel, by decide +kernel,
    hasVectors_de83⟩

/-- Next states, with each of the three STATUS codes. -/
theorem witness_InstructionFrame_StatusNamesTheError :
    (∃ t, exec (.compute 14#8) (asked 0x0E00#16 de83) = .next t) ∧
    (∃ t, exec (.verify 18#8) (asked 0x1201#16 de83Raw) = .next t) ∧
    respOf (exec (.compute 14#8) (asked 0x0E00#16 de83)) = some 0x4400#16 ∧
    respOf (exec (.verify 14#8) (asked 0x0E01#16 de83)) = some 0x0001#16 ∧
    respOf (exec (.verify 15#8) (asked 0x0F01#16 (badLast ++ [0x44#8]))) = some 0x0002#16 :=
  ⟨⟨_, rfl⟩, ⟨_, rfl⟩, by decide +kernel, by decide +kernel, by decide +kernel⟩

/-- Two states with another CMD, another RESP and another RAW[14], the same RAW[0..13]. -/
theorem witness_ResponseIsPure :
    (asked 0x0E00#16 de83).roms = (respond (okChar 0x41#8) (asked 0x0F01#16 (de83 ++ [0x44#8]))).roms ∧
    ∀ k : Nat, k < (Instr.compute 14#8).len.toNat → rawRead (asked 0x0E00#16 de83).raw k =
      rawRead (respond (okChar 0x41#8) (asked 0x0F01#16 (de83 ++ [0x44#8]))).raw k :=
  ⟨rfl, by decide +kernel⟩

theorem witness_ComputeIgnoresFifteenth :
    14 ≤ (de83 ++ [0x21#8]).length ∧ de83.length = 14 ∧ (asked 0x0F00#16 (de83 ++ [0x21#8])).roms = (asked 0x0E00#16 de83).roms ∧
    norm (asked 0x0F00#16 (de83 ++ [0x21#8])) 15#8 = de83 ++ [0x21#8] ∧ norm (asked 0x0E00#16 de83) 14#8 = de83 :=
  ⟨by decide, rfl, rfl, by decide +kernel, norm_de83⟩

/-- The clause on a byte outside the alphabet, and a trailing byte that matches. -/
theorem witness_TrailingComparedBytewise :
    (asked 0x0F01#16 (de83 ++ [0x21#8])).roms.WellFormed ∧ de83.length = 14 ∧
    norm (asked 0x0F01#16 (de83 ++ [0x21#8])) 15#8 = de83 ++ [0x21#8] ∧
    norm (asked 0x1201#16 de83Raw) 18#8 = de83 ++ [0x44#8] ∧
    Safety.HasVectors defaultRoms de83 de83Vec ∧ isAlphabetCode 0x21#8 = false :=
  ⟨witness_tables, rfl, by decide +kernel, by decide +kernel, hasVectors_de83 [], by decide⟩

theorem witness_FormatInsensitive :
    (asked 0x1201#16 de83Raw).roms = (asked 0x0F01#16 (de83 ++ [0x44#8])).roms ∧
    Safety.raw (asked 0x0F01#16 (de83 ++ [0x44#8])) 15#8 = Safety.normal (Safety.raw (asked 0x1201#16 de83Raw) 18#8) :=
  ⟨rfl, by decide +kernel⟩

/-- The tables with an entry at 'a'. -/
def romsWithLower : Roms := { defaultRoms with alphabet := defaultAlphabet.set 0x61 (some ⟨0, 0, 0, 0⟩) }

theorem witness_LowerCaseNeverLookedUp :
    let s := asked 0x0E00#16 de83
    let u := { s with roms := romsWithLower }
    s.raw = u.raw ∧ s.roms.p1 = u.roms.p1 ∧ s.roms.p2 = u.roms.p2 ∧ s.roms.reverse = u.roms.reverse ∧
    (∀ b : Byte, b ≠ 0x2D#8 → ¬ (0x61 ≤ b.toNat ∧ b.toNat ≤ 0x7A) → alphabetAt s.roms b = alphabetAt u.roms b) ∧
    alphabetAt s.roms 0x61#8 ≠ alphabetAt u.roms 0x61#8 := by
  refine ⟨rfl, rfl, rfl, rfl, ?_, ?_⟩
  · show ∀ b : Byte, b ≠ 0x2D#8 → ¬ (0x61 ≤ b.toNat ∧ b.toNat ≤ 0x7A) →
      alphabetAt defaultRoms b = alphabetAt romsWithLower b
    intro b _ hl
    have hne : 0x61 ≠ b.toNat := fun h => hl (by omega)
    exact (Vector.getElem_set_ne (xs := defaultAlphabet) (i := 0x61) (by decide) b.isLt hne).symm
  · show alphabetAt defaultRoms 0x61#8 ≠ alphabetAt romsWithLower 0x61#8
    decide +kernel

theorem witness_RespWordLayout : (0x4403#16 : Word).toNat % 4 = 3 := by decide

theorem witness_ReservedRespBitsReadZero : { State.reset with resp := 0xFFFF#16, respValid := true }.respValid = true := rfl

theorem witness_AssembleRequestText : (⟨true, List.replicate 255 0x80#8⟩ : Request).bytes.length ≤ 255 := by decide +kernel

theorem witness_AccumulatorSums_AccumulatorBounds : ((List.range 14).map fun _ => (⟨1, 1, 2, 2⟩ : CharVec)).length = 14 := by
  decide

/-- A serial chain over positions 1 to 13, then position 0: another order than the model's. -/
def chain : AdderShape := .add (((List.finRange 14).drop 2).foldl (fun t i => .add t (.position i)) (.position 1)) (.position 0)

theorem witness_AdderShapesAgree : chain.positions.Perm (List.finRange 14) := by decide +kernel

/-- The document's weight 16 with a table to match (90_conflicts.md C3). -/
theorem witness_PackingIsImmaterial :
    defaultRoms.WellFormed ∧
    (∀ (a b : Fin 2) (c d : Fin 3), alphabetAt defaultRoms ((fun v : Nat => reverseAt defaultRoms
        (Fin.ofNat 36 (v % 2 + 2 * (v / 2 % 2) + 4 * (v / 4 % 4) + 12 * (v / 16))))
        (a.val + 2 * b.val + 4 * c.val + 16 * d.val)) = some ⟨a, b, c, d⟩) ∧
    (datapath defaultRoms (flatten [⟨1, 1, 2, 2⟩])).toOption.isSome = true :=
  ⟨witness_tables, by decide +kernel, by decide +kernel⟩

/-- "DE83DUIEN83QGZ" with NLEN 14 and 15; its check character 'D' has the entry that balances the sums, 'E' one that does not. -/
theorem witness_CheckEquation :
    defaultRoms.WellFormed ∧
    (∃ p : Datapath, datapath defaultRoms (flatten (List.ofFn de83Vec)) = .ok p ∧ p.chk = 0x44#8) ∧
    (norm (asked 0x0E00#16 de83) 14#8 = de83 ++ [] ∧
      norm (asked 0x1201#16 de83Raw) 18#8 = de83 ++ [0x44#8] ∧
      norm (asked 0x0F01#16 (de83 ++ [0x45#8])) 15#8 = de83 ++ [0x45#8] ∧
      ∀ rest, Safety.HasVectors defaultRoms (de83 ++ rest) de83Vec) ∧
    (alphabetAt defaultRoms 0x44#8 = some ⟨0, 1, 1, 1⟩ ∧ Safety.Balanced defaultRoms de83Vec ⟨0, 1, 1, 1⟩) ∧
    (alphabetAt defaultRoms 0x45#8 = some ⟨0, 1, 1, 2⟩ ∧ ¬ Safety.Balanced defaultRoms de83Vec ⟨0, 1, 1, 2⟩) := by
  unfold Safety.Balanced
  exact ⟨witness_tables, ⟨_, rfl, by decide +kernel⟩,
    ⟨by decide +kernel, by decide +kernel, by decide +kernel, hasVectors_de83⟩, by decide +kernel, by decide +kernel⟩

/-- The payload, and the four kinds of trailing byte: c, its lower case, '-', another. -/
theorem witness_RoundTrip :
    (asked 0x0E00#16 de83).roms.WellFormed ∧ de83.length = 14 ∧ (∀ b ∈ de83, isAlphabetCode b = true) ∧
    Safety.raw (asked 0x0E00#16 de83) 14#8 = de83 ∧
    ∀ x ∈ [0x44#8, 0x64#8, 0x2D#8, 0x45#8], Safety.raw (asked 0x0F01#16 (de83 ++ [x])) 15#8 = de83 ++ [x] :=
  ⟨witness_tables, rfl, by decide +kernel, by decide +kernel, by decide +kernel⟩

theorem answers_of_resp {i : Instr} {s : State} {f : RespFields} (h : exec i s = .next (respond f s)) :
    Safety.Answers i s (encodeResp f) := ⟨_, h, rfl, rfl, rfl, rfl, rfl⟩

/-- "DE83DUIEN83QGZD" with its first and its last character changed. -/
theorem witness_SingleSubstitutionDetected :
    let x := de83 ++ [0x44#8]
    let s := asked 0x0F01#16 x
    x.length = 15 ∧ (∀ b ∈ x, isAlphabetCode b = true) ∧ Safety.raw s 15#8 = x ∧ Safety.Answers (.verify 15#8) s 0x0004#16 ∧
    ∀ k ∈ [(0 : Fin 15), 14], isAlphabetCode 0x41#8 = true ∧ x[k.val]? ≠ some 0x41#8 ∧
      Safety.raw (asked 0x0F01#16 (x.set k.val 0x41#8)) 15#8 = x.set k.val 0x41#8 := by
  refine ⟨rfl, by decide +kernel, by decide +kernel, answers_of_resp (f := okMatch true) ?_, by decide +kernel⟩
  have h : verifyFields defaultRoms (rawString (asked 0x0F01#16 (de83 ++ [0x44#8])) 15#8) = .ok (okMatch true) := by
    decide +kernel
  show finish (verifyFields defaultRoms (rawString (asked 0x0F01#16 (de83 ++ [0x44#8])) 15#8)) _ = _
  rw [h]
  rfl

/-- A state with RAW written and no response yet, and one with a response. -/
theorem witness_invariant :
    Safety.Inv (asked 0x0E00#16 de83) ∧ Safety.Inv (respond (okChar 0x44#8) (asked 0x0E00#16 de83)) ∧
    (respOf (step (asked 0x0E00#16 de83))).isSome = true :=
  ⟨⟨by decide +kernel, witness_tables, fun h => by cases h⟩,
    ⟨by decide +kernel, witness_tables, fun _ => ⟨okChar 0x44#8, by decide, rfl⟩⟩, by decide +kernel⟩

/-- Both values of RESP_VALID, and an admitted request. -/
theorem witness_RespValidLifetime :
    (respOf (step (asked 0x0E00#16 de83))).isSome = true ∧
    { Run.start with machine := respond (okChar 0x44#8) State.reset }.machine.respValid = true ∧
    respRsvd { Run.start with machine := respond (okChar 0x44#8) State.reset }.machine.resp = 0#5 ∧
    Run.start.machine.respValid = false ∧ HostMove.issue ≠ .reset ∧ HostMove.readResp ≠ .reset ∧
    HostMove.readResp ≠ .issue :=
  ⟨by decide +kernel, rfl, by decide, rfl, by decide, by decide, by decide⟩

theorem witness_ResponseHeldBetweenIssues :
    HostMove.issue ∉ [HostMove.writeCmd 0x0E00#16, .writeRaw de83, .readResp] ∧
    HostMove.reset ∉ [HostMove.writeCmd 0x0E00#16, .writeRaw de83, .readResp] := by decide

theorem witness_RawHoldsLastWrite : Memory.wf { Run.start with machine := asked 0x0E00#16 de83 }.machine.raw = true := by
  decide +kernel

theorem witness_UnpresentableWriteRefused :
    (∃ bytes, HostMove.writeRaw (List.replicate 256 0x41#8) = .writeRaw bytes ∧ 255 < bytes.length) ∧
    ∃ k b, HostMove.writeRawByte 255 0x41#8 = .writeRawByte k b ∧ 255 ≤ k :=
  ⟨⟨_, rfl, by decide +kernel⟩, ⟨_, _, rfl, Nat.le_refl _⟩⟩

theorem witness_TransactionReadsItsResponse :
    Memory.wf { Run.start with machine := asked 0x0E00#16 de83 }.machine.raw = true ∧
    de83Raw.length = (Instr.verify 18#8).len.toNat ∧
    Safety.raw (asked 0x1201#16 de83Raw) (Instr.verify 18#8).len = de83Raw := by decide +kernel

/-- Two instances, with a transaction at each: COMPUTE at 0 and VERIFY at 1, their moves alternating. -/
theorem witness_InstancesAreIndependent :
    let kms := (transaction 0x0E00#16 de83).zip (transaction 0x1201#16 de83Raw) |>.flatMap fun p => [(0, p.1), (1, p.2)]
    [Run.start, Run.start][1]? = some Run.start ∧ Memory.wf Run.start.machine.raw = true ∧
    de83Raw.length = (Instr.verify 18#8).len.toNat ∧
    (kms.filter fun km => km.1 == 1).map Prod.snd = transaction (encodeCmd (.verify 18#8)) de83Raw ∧
    Safety.raw (asked 0x1201#16 de83Raw) (Instr.verify 18#8).len = de83Raw := by decide +kernel

theorem witness_OutcomesPersist :
    Safety.Good (Run.start.moves (transaction 0x0E00#16 de83)) ∧
    Recorded.fault .readBeforeResponse ∈ (Run.start.move .readResp).outcomes := by
  constructor
  · show (Run.start.moves (transaction 0x0E00#16 de83)).outcomes = []
    decide +kernel
  · decide +kernel

/-- A read of RESP before any response, and moves without a read of RESP. -/
theorem witness_OnlyEarlyReadsFault :
    Recorded.fault .readBeforeResponse ∈ (Run.start.move .readResp).outcomes ∧
    Recorded.fault .readBeforeResponse ∉ Run.start.outcomes ∧
    HostMove.readResp ∉ [HostMove.writeRaw de83, .writeCmd 0x0E02#16, .issue] := by decide +kernel

end Sys2Proof.Tests
end

section
/-! Laws of the host's moves that Laws/HostMoves.lean leaves open (the writes of RAW, the read of RESP), and what they give for
RESP_VALID (10_state.md R23). -/

namespace Sys2Proof.Machine

/-- RSVD reads as 0 and every other bit as stored (10_state.md R24). -/
theorem getLsbD_hardwireRsvd (w : Word) (k : Nat) :
    (hardwireRsvd w).getLsbD k = (w.getLsbD k && !(decide (3 ≤ k) && decide (k ≤ 7))) := by
  rcases Nat.lt_or_ge k 16 with hk | hk
  · have hmask : ∀ j : Fin 16,
        (0xFF07#16).getLsbD j.val = !(decide (3 ≤ j.val) && decide (j.val ≤ 7)) := by decide
    rw [hardwireRsvd, BitVec.getLsbD_and, hmask ⟨k, hk⟩]
  · rw [BitVec.getLsbD_of_ge _ k hk, BitVec.getLsbD_of_ge w k hk, Bool.false_and]

/-- The bits of RSVD are bits 3 to 7 of RESP (30_encoding.md R82). -/
theorem getLsbD_of_respRsvd_eq_zero {w : Word} (h : respRsvd w = 0#5) {k : Nat} (hlo : 3 ≤ k) (hhi : k ≤ 7) :
    w.getLsbD k = false := by
  obtain ⟨j, rfl⟩ := Nat.exists_eq_add_of_le hlo
  have hbit : (respRsvd w).getLsbD j = (0#5).getLsbD j := by rw [h]
  simpa [respRsvd, BitVec.getLsbD_extractLsb', show j < 5 by omega] using hbit

theorem hardwireRsvd_eq_self {w : Word} (h : respRsvd w = 0#5) : hardwireRsvd w = w := by
  apply BitVec.eq_of_getLsbD_eq
  intro k _
  rw [getLsbD_hardwireRsvd]
  by_cases hk : 3 ≤ k ∧ k ≤ 7
  · rw [getLsbD_of_respRsvd_eq_zero h hk.1 hk.2, Bool.false_and]
  · rw [← Bool.decide_and, decide_eq_false hk, Bool.not_false, Bool.and_true]

/-- An admitted request leaves the state of one response (44_operations.md R202). -/
theorem eq_respond_of_step_next {s t : State} (h : step s = .next t) : ∃ f : RespFields, t = respond f s := by
  obtain ⟨f, hf⟩ | ⟨why, -, hr⟩ := step_responds s
  · exact ⟨f, Host.Outcome.next.inj (h.symm.trans hf)⟩
  · exact nomatch h.symm.trans hr

/-- What a write of RAW from RAW[0] on does to the run: the bytes stored, or a recorded refusal (log 10). -/
theorem writeRaw_cases (bytes : List Byte) (r : Run) :
    (bytes.length ≤ rawMax ∧ r.move (.writeRaw bytes) = { r with machine := setRawFrom 0 bytes r.machine }) ∨
    (rawMax < bytes.length ∧ r.move (.writeRaw bytes) = r.record (.refusal .notPresentable)) := by
  rcases Nat.lt_or_ge rawMax bytes.length with h | h
  · exact .inr ⟨h, by simp only [Run.move, hostWriteRaw, if_neg (Nat.not_le_of_lt h), Run.take]⟩
  · exact .inl ⟨h, by simp only [Run.move, hostWriteRaw, if_pos h, Run.take]⟩

/-- What a write of one RAW byte does to the run: the byte stored, or a recorded refusal (log 10). -/
theorem writeRawByte_cases (k : Nat) (b : Byte) (r : Run) :
    (k < rawMax ∧ r.move (.writeRawByte k b) = { r with machine := setRawByte k b r.machine }) ∨
    (rawMax ≤ k ∧ r.move (.writeRawByte k b) = r.record (.refusal .notPresentable)) := by
  rcases Nat.lt_or_ge k rawMax with h | h
  · exact .inl ⟨h, by simp only [Run.move, hostWriteRawByte, if_pos h, Run.take]⟩
  · exact .inr ⟨h, by simp only [Run.move, hostWriteRawByte, if_neg (Nat.not_lt_of_le h), Run.take]⟩

theorem hostReadResp_of_valid {s : State} (h : s.respValid = true) : hostReadResp s = .ok (hardwireRsvd s.resp) :=
  if_pos h

theorem hostReadResp_of_not_valid {s : State} (h : s.respValid = false) :
    hostReadResp s = .error .readBeforeResponse :=
  if_neg (Bool.eq_false_iff.mp h)

theorem move_readResp_of_ok {r : Run} {w : Word} (h : hostReadResp r.machine = .ok w) :
    r.move .readResp = { r with observed := r.observed ++ [w] } := by
  simp only [Run.move, Run.readResp, h]

theorem move_readResp_of_error {r : Run} {f : Fault} (h : hostReadResp r.machine = .error f) :
    r.move .readResp = r.record (.fault f) := by
  simp only [Run.move, Run.readResp, h]

/-- Only an issue and a reset change RESP_VALID. -/
theorem move_respValid (r : Run) (m : HostMove) (hreset : m ≠ .reset) (hissue : m ≠ .issue) :
    (r.move m).machine.respValid = r.machine.respValid := by
  cases m with
  | writeRaw bytes => obtain ⟨-, h⟩ | ⟨-, h⟩ := writeRaw_cases bytes r <;> simp [h]
  | writeRawByte k b => obtain ⟨-, h⟩ | ⟨-, h⟩ := writeRawByte_cases k b r <;> simp [h]
  | writeCmd w => exact hostWriteCmd_respValid w r.machine
  | issue => exact absurd rfl hissue
  | readRespValid => rfl
  | readResp => exact congrArg State.respValid (readResp_machine r)
  | reset => exact absurd rfl hreset

/-- An issue never clears RESP_VALID, not even when the request is refused. -/
theorem issue_keeps_respValid (r : Run) (hv : r.machine.respValid = true) :
    (r.move .issue).machine.respValid = true := by
  obtain ⟨f, h⟩ | ⟨why, h⟩ := issue_cases r
  · rw [h, respond_respValid]
  · rw [h, record_machine, consumeRequest_respValid, hv]

/-- RESP_VALID, once set, stays set until a reset. -/
theorem move_keeps_respValid (r : Run) (m : HostMove) (hv : r.machine.respValid = true) (hreset : m ≠ .reset) :
    (r.move m).machine.respValid = true := by
  by_cases hissue : m = .issue
  · rw [hissue]
    exact issue_keeps_respValid r hv
  · rw [move_respValid r m hreset hissue, hv]

/-- A read of RESP before a response faults and observes nothing (10_state.md R23). -/
theorem readResp_before_response (r : Run) (hv : r.machine.respValid = false) :
    Recorded.fault .readBeforeResponse ∈ (r.move .readResp).outcomes ∧ (r.move .readResp).observed = r.observed := by
  rw [move_readResp_of_error (hostReadResp_of_not_valid hv)]
  exact ⟨(mem_record _ _ r).mpr (.inr rfl), record_observed _ r⟩

/-- A read of RESP after a response observes it and records nothing (10_state.md R23, R24). -/
theorem readResp_after_response (r : Run) (hv : r.machine.respValid = true) :
    (r.move .readResp).outcomes = r.outcomes ∧
    ∃ w : Word, hostReadResp r.machine = .ok w ∧ (r.move .readResp).observed = r.observed ++ [w] ∧
      (respRsvd r.machine.resp = 0#5 → w = r.machine.resp) := by
  have hread := hostReadResp_of_valid hv
  rw [move_readResp_of_ok hread]
  exact ⟨rfl, _, hread, rfl, hardwireRsvd_eq_self⟩

/-- Settles O38: an issue answers or uses up its request, so RESP_VALID is set by `respond` and cleared by `hostReset` alone. -/
theorem respValidLifetime : Obligations.RespValidLifetime := by
  refine ⟨rfl, ?_, move_keeps_respValid, move_respValid, fun r => hostReset_respValid r.machine, fun _ => rfl,
    readResp_before_response, readResp_after_response⟩
  intro s t h
  obtain ⟨f, rfl⟩ := eq_respond_of_step_next h
  exact respond_respValid f s

end Sys2Proof.Machine
end

section
/-! The bytes of a word on an 8-bit path (20_memory.md R53). -/

namespace Sys2Proof

theorem toNat_wordOfBytes (b0 b1 : Byte) : (wordOfBytes b0 b1).toNat = 256 * b1.toNat + b0.toNat :=
  toNat_word_append b1 b0

theorem lowByte_eq_ofNat (w : Word) : w.extractLsb' 0 8 = BitVec.ofNat 8 (w.toNat % 256) := by
  apply BitVec.eq_of_toNat_eq
  simp

theorem highByte_eq_ofNat (w : Word) : w.extractLsb' 8 8 = BitVec.ofNat 8 (w.toNat / 256) := by
  rw [← toNat_cmdLen, BitVec.ofNat_toNat, BitVec.setWidth_eq, cmdLen]

theorem bytesOfWord_eq_ofNat (w : Word) :
    bytesOfWord w = [BitVec.ofNat 8 (w.toNat % 256), BitVec.ofNat 8 (w.toNat / 256)] := by
  rw [bytesOfWord, lowByte_eq_ofNat, highByte_eq_ofNat]

/-- The low byte in front of the high byte is the word again. -/
theorem wordOfBytes_mod_div (w : Word) :
    wordOfBytes (BitVec.ofNat 8 (w.toNat % 256)) (BitVec.ofNat 8 (w.toNat / 256)) = w := by
  have hw := w.isLt
  apply BitVec.eq_of_toNat_eq
  rw [toNat_wordOfBytes, BitVec.toNat_ofNat, BitVec.toNat_ofNat]
  omega

/-- Settles O4: the two bytes are the remainder and the quotient by 256, from which division gives the word back. -/
theorem wordBytesAreLittleEndian : Obligations.WordBytesAreLittleEndian :=
  fun w => ⟨bytesOfWord_eq_ofNat w, wordOfBytes_mod_div w⟩

end Sys2Proof
end

section
/-! What an instruction changes and what it leaves (20_memory.md R57): its next state is one response, and RESP's RSVD is 0. -/

namespace Sys2Proof.Machine

/-- The packed RESP word as a number: CHAR above MATCH above STATUS (30_encoding.md R82). -/
theorem toNat_encodeResp (f : RespFields) :
    (encodeResp f).toNat = 256 * f.char.toNat + (4 * f.matched.toNat + (statusCode f.status).toNat) := by
  have hlow : (0#5 ++ (BitVec.ofBool f.matched ++ statusCode f.status) : Byte).toNat =
      4 * f.matched.toNat + (statusCode f.status).toNat := by
    cases f.matched <;> cases f.status <;> rfl
  rw [encodeResp, toNat_word_append, hlow]

/-- No response sets a bit of RSVD (10_state.md R24). -/
@[simp] theorem respRsvd_encodeResp (f : RespFields) : respRsvd (encodeResp f) = 0#5 := by
  have hmatch := f.matched.toNat_le
  have hstatus := (statusCode f.status).isLt
  apply BitVec.eq_of_toNat_eq
  rw [toNat_respRsvd, toNat_encodeResp, BitVec.toNat_ofNat]
  omega

/-- An instruction's next state is the state of one response (44_operations.md R202). -/
theorem eq_respond_of_exec_next {i : Instr} {s t : State} (h : exec i s = .next t) : ∃ f : RespFields, t = respond f s := by
  obtain ⟨f, hf, -⟩ := exec_responds i s
  exact ⟨f, Host.Outcome.next.inj (h.symm.trans hf)⟩

/-- Settles O13: the next state is one response, whose frame is that of `respond`. -/
theorem instructionFrame : Obligations.InstructionFrame := by
  intro i s t h
  obtain ⟨f, rfl⟩ := eq_respond_of_exec_next h
  exact ⟨respond_cmd f s, respond_raw f s, fun _ => rfl, respond_roms f s, respond_respValid f s, respRsvd_encodeResp f⟩

end Sys2Proof.Machine
end

section
/-! The front end (40_front_end.md): the normaliser as removal and case mapping, the length gate and the payload. -/

namespace Sys2Proof.Machine

theorem toNat_upcase (b : Byte) :
    (upcase b).toNat = if 0x61 ≤ b.toNat ∧ b.toNat ≤ 0x7A then b.toNat - 0x20 else b.toNat := by
  have hletter : (0x61#8 ≤ b ∧ b ≤ 0x7A#8) ↔ (0x61 ≤ b.toNat ∧ b.toNat ≤ 0x7A) := Iff.rfl
  rw [upcase]
  by_cases h : 0x61 ≤ b.toNat ∧ b.toNat ≤ 0x7A
  · have hsub : 0x20#8 ≤ b := Nat.le_trans (by decide) h.1
    rw [if_pos (hletter.mpr h), if_pos h, BitVec.toNat_sub_of_le hsub]
    rfl
  · rw [if_neg (mt hletter.mp h), if_neg h]

theorem upcase_eq_upper (b : Byte) : upcase b = Safety.upper b := by
  apply BitVec.eq_of_toNat_eq
  rw [toNat_upcase, Safety.upper, apply_ite BitVec.toNat, BitVec.toNat_ofNat]
  have hb := b.isLt
  split <;> omega

theorem normalise_hyphen (x : List Byte) : normalise (0x2D#8 :: x) = normalise x := if_pos rfl

theorem normalise_cons_of_ne {b : Byte} (hb : b ≠ 0x2D#8) (x : List Byte) :
    normalise (b :: x) = upcase b :: normalise x := if_neg hb

/-- The left-to-right pass of R110 is the removal of '-' followed by the case mapping. -/
theorem normalise_eq_normal (x : List Byte) : normalise x = Safety.normal x := by
  induction x with
  | nil => rfl
  | cons b x ih =>
    by_cases hb : b = 0x2D#8
    · rw [hb, normalise_hyphen, ih]
      rfl
    · rw [normalise_cons_of_ne hb, ih, upcase_eq_upper]
      simp [Safety.normal, hb]

theorem length_normalise_le (x : List Byte) : (normalise x).length ≤ x.length := by
  rw [normalise_eq_normal, Safety.normal, List.length_map]
  exact List.length_filter_le _ _

theorem rawString_eq_raw (s : State) (len : Byte) : rawString s len = Safety.raw s len := by
  rw [rawString, Safety.raw, List.ofFn_eq_map, ← List.map_coe_finRange_eq_range, List.map_map]
  rfl

theorem length_rawString (s : State) (len : Byte) : (rawString s len).length = len.toNat := by
  rw [rawString, List.length_map, List.length_range]

/-- Settles O18: byte by byte the case mapping is that of R112, and the pass drops exactly the bytes that `filter` drops. -/
theorem normaliserContract : Obligations.NormaliserContract :=
  ⟨toNat_upcase, fun x => ⟨normalise_eq_normal x, length_normalise_le x⟩,
    fun s len => ⟨rawString_eq_raw s len, length_rawString s len⟩⟩

theorem normalise_rawString (s : State) (len : Byte) :
    normalise (rawString s len) = Safety.normal (Safety.raw s len) := by
  rw [rawString_eq_raw, normalise_eq_normal]

theorem length_payload {n : List Byte} (h : 14 ≤ n.length) : (payload n).length = 14 :=
  List.length_take_of_le h

theorem getElem?_payload (n : List Byte) {i : Nat} (h : i < 14) : (payload n)[i]? = n[i]? :=
  List.getElem?_take_of_lt h

/-- Bytes after the first 14 are not payload (R116). -/
theorem payload_append {p : List Byte} (hp : p.length = 14) (y : List Byte) : payload (p ++ y) = p :=
  List.take_left' hp

theorem payload_of_length {p : List Byte} (hp : p.length = 14) : payload p = p :=
  List.take_of_length_le hp.le

theorem lengthGateCompute_ok {n : Nat} (h : n = 14 ∨ n = 15) : lengthGateCompute n = .ok () :=
  if_neg fun hne => h.elim hne.1 hne.2

/-- Past the length gate, COMPUTE reads the payload and nothing else of the normalised identifier (R116). -/
theorem computeFields_congr_payload {x y : List Byte} (roms : Roms)
    (hx : (normalise x).length = 14 ∨ (normalise x).length = 15)
    (hy : (normalise y).length = 14 ∨ (normalise y).length = 15)
    (hpl : payload (normalise x) = payload (normalise y)) : computeFields roms x = computeFields roms y := by
  simp only [computeFields, lengthGateCompute_ok hx, lengthGateCompute_ok hy, hpl]

end Sys2Proof.Machine
end

section
/-! Equal answers: the RESP word is a function of the response fields alone (44_operations.md R202, R203). -/

namespace Sys2Proof.Machine

/-- The word that an instruction answers with is the packed word of the fields it gives. -/
theorem exists_answers_of_instrFields_eq {i j : Instr} {s u : State}
    (h : instrFields i s.roms (rawString s i.len) = instrFields j u.roms (rawString u j.len)) :
    ∃ w : Word, Safety.Answers i s w ∧ Safety.Answers j u w := by
  obtain ⟨f, hs, hf⟩ := exec_responds i s
  have hu : exec j u = .next (respond f u) := by
    rw [h] at hf
    obtain hf | ⟨e, hf, rfl⟩ := hf <;> rw [exec_eq_finish, hf] <;> rfl
  exact ⟨encodeResp f, ⟨_, hs, rfl, rfl, rfl, rfl, rfl⟩, ⟨_, hu, rfl, rfl, rfl, rfl, rfl⟩⟩

/-- Settles O16: both requests pass the length gate with the payload P, the only part COMPUTE reads. -/
theorem computeIgnoresFifteenth : Obligations.ComputeIgnoresFifteenth := by
  refine ⟨fun n h => ⟨length_payload h, fun i hi => getElem?_payload n hi⟩, ?_⟩
  intro s u len len' p x hp hroms hs hu
  rw [← normalise_rawString] at hs hu
  have hfields : computeFields s.roms (rawString s len) = computeFields u.roms (rawString u len') := by
    rw [hroms]
    apply computeFields_congr_payload
    · exact .inr (by rw [hs, List.length_append, hp]; rfl)
    · exact .inl (by rw [hu, hp])
    · rw [hs, hu, payload_append hp, payload_of_length hp]
  exact exists_answers_of_instrFields_eq (i := .compute len) (j := .compute len') hfields

end Sys2Proof.Machine
end

section
/-! LOOKUP and FLATTEN (41_vector_lookup.md R134, R135): LOOKUP maps the ALPHABET over the payload and is none as soon as one
entry is; dropping i positions of the payload drops 4 * i entries of D. -/

namespace Sys2Proof.Machine

@[simp] theorem lookup_nil (roms : Roms) : lookup roms [] = some [] := rfl

theorem lookup_cons (roms : Roms) (b : Byte) (bs : List Byte) :
    lookup roms (b :: bs) = (alphabetAt roms b).bind fun e => (lookup roms bs).map (e :: ·) := by
  rw [lookup]
  cases alphabetAt roms b with
  | none => rfl
  | some e => cases lookup roms bs <;> rfl

theorem lookup_eq_none_iff (roms : Roms) (pl : List Byte) :
    lookup roms pl = none ↔ ∃ b ∈ pl, alphabetAt roms b = none := by
  induction pl with
  | nil => simp
  | cons b bs ih =>
    rw [lookup_cons, List.exists_mem_cons_iff, ← ih]
    cases alphabetAt roms b <;> simp

theorem lookup_eq_some_iff (roms : Roms) (pl : List Byte) (es : List CharVec) :
    lookup roms pl = some es ↔ pl.map (alphabetAt roms) = es.map some := by
  induction pl generalizing es with
  | nil => cases es <;> simp
  | cons b bs ih =>
    rw [lookup_cons, List.map_cons]
    cases es with
    | nil => simp [Option.bind_eq_some_iff]
    | cons e es => simp [Option.bind_eq_some_iff, ih]

@[simp] theorem flatten_cons (e : CharVec) (es : List CharVec) :
    flatten (e :: es) = e.m0.val :: e.m1.val :: e.m2.val :: e.m3.val :: flatten es := rfl

theorem length_flatten (es : List CharVec) : (flatten es).length = 4 * es.length := by
  induction es with
  | nil => rfl
  | cons e es ih => simp [ih, Nat.mul_succ]

theorem drop_flatten (es : List CharVec) (i : Nat) : (flatten es).drop (4 * i) = flatten (es.drop i) := by
  induction es generalizing i with
  | nil => simp [flatten]
  | cons e es ih =>
    cases i with
    | zero => rfl
    | succ i => simpa [Nat.mul_succ] using ih i

/-- From entry 4 * i on, D holds position i's vector and then those of the later positions. -/
theorem getElem?_flatten (es : List CharVec) {i : Nat} (h : i < es.length) (j : Nat) :
    (flatten es)[4 * i + j]? = (flatten (es[i] :: es.drop (i + 1)))[j]? := by
  rw [← List.getElem?_drop, drop_flatten, List.drop_eq_getElem_cons h]

/-- Settles O21: LOOKUP by induction on the payload; FLATTEN by reading the four entries that head D from position i on. -/
theorem lookupAndFlatten : Obligations.LookupAndFlatten :=
  ⟨fun roms pl => ⟨lookup_eq_none_iff roms pl, lookup_eq_some_iff roms pl⟩,
    fun es => ⟨length_flatten es, fun _ h =>
      ⟨getElem?_flatten es h 0, getElem?_flatten es h 1, getElem?_flatten es h 2, getElem?_flatten es h 3⟩⟩⟩

end Sys2Proof.Machine
end

section
/-! The remaps f and g as tables of values (43_modular_adder_tree.md R172, R174, R176): a value of 0..2 inside the domain,
INTERNAL_INVARIANT outside, which no instruction reaches. -/

namespace Sys2Proof.Machine

theorem remapF_eq_getD {x : Nat} (h : x ≤ 2) : remapF x = .ok (([0, 2, 1] : List Nat).getD x 0) := by
  interval_cases x <;> rfl

theorem remapG_eq_getD {y : Nat} (h : y ≤ 4) : remapG y = .ok (([0, 2, 1, 0, 2] : List Nat).getD y 0) := by
  interval_cases y <;> rfl

theorem remapF_of_two_lt {x : Nat} (h : 2 < x) : remapF x = .error .internalInvariant := by
  obtain ⟨k, rfl⟩ := Nat.exists_eq_add_of_le' (show 3 ≤ x from h)
  rfl

theorem remapG_of_four_lt {y : Nat} (h : 4 < y) : remapG y = .error .internalInvariant := by
  obtain ⟨k, rfl⟩ := Nat.exists_eq_add_of_le' (show 5 ≤ y from h)
  rfl

theorem getD_zero_le {l : List Nat} {b : Nat} (hl : ∀ y ∈ l, y ≤ b) (x : Nat) : l.getD x 0 ≤ b := by
  rcases Nat.lt_or_ge x l.length with hx | hx
  · rw [List.getD_eq_getElem l 0 hx]
    exact hl _ (List.getElem_mem hx)
  · rw [List.getD_eq_default l 0 hx]
    exact Nat.zero_le b

/-- Every value of f is below 3 (R172). -/
theorem remapF_table_le (x : Nat) : ([0, 2, 1] : List Nat).getD x 0 ≤ 2 := getD_zero_le (by decide) x

/-- Every value of g is below 3 (R174). -/
theorem remapG_table_le (y : Nat) : ([0, 2, 1, 0, 2] : List Nat).getD y 0 ≤ 2 := getD_zero_le (by decide) y

theorem exec_ne_fault (i : Instr) (s : State) (f : Fault) : exec i s ≠ .fault f := by
  obtain ⟨g, h, -⟩ := exec_responds i s
  rw [h]
  nofun

theorem step_ne_fault (s : State) (f : Fault) : step s ≠ .fault f := by
  obtain ⟨why, -, h⟩ | ⟨i, -, h⟩ := step_cases s
  · rw [h]
    nofun
  · rw [h]
    exact exec_ne_fault i s f

/-- Settles O27: inside its domain a remap reads its table, outside it falls to its last arm; an instruction always responds,
and a step refuses or runs one. -/
theorem remapDomainNeverLeft : Obligations.RemapDomainNeverLeft := by
  refine ⟨fun x => ?_, fun y => ?_, exec_ne_fault, step_ne_fault⟩
  · split
    · next h => exact ⟨_, remapF_table_le x, remapF_eq_getD h⟩
    · next h => exact remapF_of_two_lt (Nat.lt_of_not_le h)
  · split
    · next h => exact ⟨_, remapG_table_le y, remapG_eq_getD h⟩
    · next h => exact remapG_of_four_lt (Nat.lt_of_not_le h)

end Sys2Proof.Machine
end

section
/-! The adder tree (43_modular_adder_tree.md R170-R180): the packed index read as four mixed-radix digits, and REVERSE as the
inverse of ALPHABET under that reading. -/

namespace Sys2Proof.Machine

/-- The weights 2, 4 and 12 keep the four residues apart (R177). -/
theorem unpack_packV {q1 q2 r1 : Nat} (r2 : Nat) (hq1 : q1 < 2) (hq2 : q2 < 2) (hr1 : r1 < 3) :
    packV q1 q2 r1 r2 % 2 = q1 ∧ packV q1 q2 r1 r2 / 2 % 2 = q2 ∧ packV q1 q2 r1 r2 / 4 % 3 = r1 ∧
      packV q1 q2 r1 r2 / 12 = r2 := by
  simp only [packV, vR2Weight]
  omega

/-- Every index is the packing of its own digits (R177). -/
theorem packV_unpack (v : Nat) : packV (v % 2) (v / 2 % 2) (v / 4 % 3) (v / 12) = v := by
  simp only [packV, vR2Weight]
  omega

/-- The vector of an index has the index's digits as entries (R177, R179). -/
theorem vecOfIndex_digits (v : Fin nV) :
    (vecOfIndex v).m0.val = v.val % 2 ∧ (vecOfIndex v).m1.val = v.val / 2 % 2 ∧
      (vecOfIndex v).m2.val = v.val / 4 % 3 ∧ (vecOfIndex v).m3.val = v.val / 12 :=
  ⟨rfl, rfl, rfl, Nat.mod_eq_of_lt (Nat.div_lt_of_lt_mul v.isLt)⟩

theorem alphabetAt_reverse {roms : Roms} (hw : roms.WellFormed) (v : Fin nV) :
    alphabetAt roms roms.reverse[v] = some (vecOfIndex v) := hw.inverse v

/-- Only alphabet symbols have an entry (41_vector_lookup.md R138). -/
theorem isAlphabetCode_of_alphabetAt {roms : Roms} (hw : roms.WellFormed) {b : Byte} {e : CharVec}
    (h : alphabetAt roms b = some e) : isAlphabetCode b = true := by
  rw [← hw.codes b]
  exact Option.isSome_of_eq_some h

/-- Under well-formed tables REVERSE[v] is the symbol whose entry has v's digits (R179, R180). -/
theorem reverse_symbol {roms : Roms} (hw : roms.WellFormed) (v : Fin nV) :
    isAlphabetCode roms.reverse[v] = true ∧ ∃ e : CharVec, alphabetAt roms roms.reverse[v] = some e ∧
      e.m0.val = v.val % 2 ∧ e.m1.val = v.val / 2 % 2 ∧ e.m2.val = v.val / 4 % 3 ∧ e.m3.val = v.val / 12 :=
  have hentry := alphabetAt_reverse hw v
  ⟨isAlphabetCode_of_alphabetAt hw hentry, _, hentry, vecOfIndex_digits v⟩

/-- Settles O26: the stages are those of `datapath_ok`, with the remaps read from their tables; q1, q2 and r1 are below 2, 2
and 3, so they and r2 are the digits of v, which REVERSE and ALPHABET give back as CHK's vector. -/
theorem adderTreeStages : Obligations.AdderTreeStages := by
  refine ⟨fun roms d => ?_, fun v _ => packV_unpack v⟩
  obtain ⟨p, hp, hc1, hc2, hc3, hc4, hq1, hq2, hr1, hs, hr2, hv, hlt, hchk⟩ := datapath_ok roms d
  have hr1_table : p.r1 = ([0, 2, 1] : List Nat).getD (p.c4 % 3) 0 :=
    hr1.trans (Except.ok.inj ((remapF_of_mod p.c4).symm.trans (remapF_eq_getD (by omega))))
  have hr1_le : p.r1 ≤ 2 := hr1_table ▸ remapF_table_le _
  have hs_le : p.s ≤ 4 := by omega
  have hr2_table : p.r2 = ([0, 2, 1, 0, 2] : List Nat).getD p.s 0 :=
    hr2.trans (Except.ok.inj ((remapG_of_le p.s hs_le).symm.trans (remapG_eq_getD hs_le)))
  obtain ⟨hv1, hv2, hv3, hv4⟩ : p.v % 2 = p.q1 ∧ p.v / 2 % 2 = p.q2 ∧ p.v / 4 % 3 = p.r1 ∧ p.v / 12 = p.r2 := by
    rw [hv]
    exact unpack_packV p.r2 (by omega) (by omega) (by omega)
  refine ⟨p, hp, hc1, hc2, hc3, hc4, hq1, hq2, hr1_table, hs, hs_le, hr2_table, hv, hv1, hv2, hv3, hv4,
    ⟨hlt, hchk⟩, ?_⟩
  intro hw
  have hsymbol := reverse_symbol hw ⟨p.v, hlt⟩
  rw [← hv1, ← hv2, ← hv3, ← hv4, hchk]
  exact hsymbol

end Sys2Proof.Machine
end

section
/-! What an instruction answers, read off the fields it gives (44_operations.md R202, R204), and the RESP words of those fields
(30_encoding.md R82, R83). -/

namespace Sys2Proof.Machine

theorem answers_of_exec_eq_respond {i : Instr} {s : State} {f : RespFields} (h : exec i s = .next (respond f s)) :
    Safety.Answers i s (encodeResp f) :=
  ⟨_, h, respond_resp f s, respond_respValid f s, respond_cmd f s, respond_raw f s, respond_roms f s⟩

theorem answers_of_instrFields_ok {i : Instr} {s : State} {f : RespFields}
    (h : instrFields i s.roms (rawString s i.len) = .ok f) : Safety.Answers i s (encodeResp f) :=
  answers_of_exec_eq_respond (by rw [exec_eq_finish, h]; rfl)

theorem answers_of_instrFields_raised {i : Instr} {s : State} {e : ErrorCode}
    (h : instrFields i s.roms (rawString s i.len) = .error (.raised e)) :
    Safety.Answers i s (encodeResp (errorFields e)) :=
  answers_of_exec_eq_respond (by rw [exec_eq_finish, h]; rfl)

theorem encodeResp_okChar (c : Byte) : encodeResp (okChar c) = c ++ 0x00#8 := by
  apply BitVec.eq_of_toNat_eq
  rw [toNat_encodeResp, toNat_word_append]
  rfl

theorem encodeResp_okMatch (m : Bool) : encodeResp (okMatch m) = if m then 0x0004#16 else 0x0000#16 := by
  cases m <;> rfl

theorem rawString_congr {s u : State} {len : Byte} (h : ∀ k : Nat, k < len.toNat → rawRead s.raw k = rawRead u.raw k) :
    rawString s len = rawString u len :=
  List.map_congr_left fun k hk => h k (List.mem_range.mp hk)

/-- Settles O15: an instruction's fields are a function of the tables and of the raw string, on which the two states agree. -/
theorem responseIsPure : Obligations.ResponseIsPure := by
  intro i s u hroms hraw
  apply exists_answers_of_instrFields_eq
  rw [hroms, rawString_congr hraw]

end Sys2Proof.Machine
end

section
/-! CHECKDIGIT as a formula over the payload's vectors (42_weighted_accumulator.md R152-R155, 43_modular_adder_tree.md
R170-R180): the loops of the accumulator are sums, and D holds the vectors that LOOKUP gives. -/

namespace Sys2Proof.Machine

theorem accumulate_eq_sum (term : Fin 14 → Nat) : accumulate term = ∑ i, term i := by
  rw [accumulate, Fin.sum_univ_def, List.sum_eq_foldl, List.foldl_map]

/-- D[4i..4i+3] is position i's vector (41_vector_lookup.md R135). -/
theorem dAt_flatten_ofFn {n : Nat} (e : Fin n → CharVec) (i : Fin n) :
    dAt (flatten (List.ofFn e)) (4 * i.val) = (e i).m0.val ∧
    dAt (flatten (List.ofFn e)) (4 * i.val + 1) = (e i).m1.val ∧
    dAt (flatten (List.ofFn e)) (4 * i.val + 2) = (e i).m2.val ∧
    dAt (flatten (List.ofFn e)) (4 * i.val + 3) = (e i).m3.val := by
  have hi : i.val < (List.ofFn e).length := by simp
  have hentry : (List.ofFn e)[i.val] = e i := by simp
  have hdrop := getElem?_flatten (List.ofFn e) hi
  rw [hentry] at hdrop
  simp only [dAt, List.getD_eq_getElem?_getD]
  exact ⟨congrArg (Option.getD · 0) (hdrop 0), congrArg (Option.getD · 0) (hdrop 1),
    congrArg (Option.getD · 0) (hdrop 2), congrArg (Option.getD · 0) (hdrop 3)⟩

theorem accC1_flatten_ofFn (roms : Roms) (e : Fin 14 → CharVec) : accC1 roms (flatten (List.ofFn e)) = Safety.c1 roms e := by
  simp only [accC1, accumulate_eq_sum, termC1, dAt_flatten_ofFn, Safety.c1]

theorem accC2_flatten_ofFn (roms : Roms) (e : Fin 14 → CharVec) : accC2 roms (flatten (List.ofFn e)) = Safety.c2 roms e := by
  simp only [accC2, accumulate_eq_sum, termC2, dAt_flatten_ofFn, Safety.c2]

theorem accC3_flatten_ofFn (roms : Roms) (e : Fin 14 → CharVec) : accC3 roms (flatten (List.ofFn e)) = Safety.c3 roms e := by
  simp only [accC3, accumulate_eq_sum, termC3, dAt_flatten_ofFn, Safety.c3]

theorem accC4_flatten_ofFn (roms : Roms) (e : Fin 14 → CharVec) : accC4 roms (flatten (List.ofFn e)) = Safety.c4 roms e := by
  simp only [accC4, accumulate_eq_sum, termC4, dAt_flatten_ofFn, Safety.c4]

/-- The datapath's character is REVERSE at the index of the formulas (R177, R180). -/
theorem exists_check_datapath (roms : Roms) (e : Fin 14 → CharVec) :
    ∃ p : Datapath, datapath roms (flatten (List.ofFn e)) = .ok p ∧ Safety.IsCheck roms e p.chk := by
  obtain ⟨p, hp, hc1, hc2, hc3, hc4, hq1, hq2, hr1, hs, hr2, hv, hlt, hchk⟩ := datapath_ok roms (flatten (List.ofFn e))
  rw [accC1_flatten_ofFn] at hc1
  rw [accC2_flatten_ofFn] at hc2
  rw [accC3_flatten_ofFn] at hc3
  rw [accC4_flatten_ofFn] at hc4
  have hr1' : p.r1 = Safety.r1 roms e := by rw [hr1, hc4, Safety.r1]
  have hr2' : p.r2 = Safety.r2 roms e := by rw [hr2, hs, hc3, hr1', Safety.r2]
  have hindex : p.v = Safety.index roms e := by rw [hv, hq1, hq2, hc1, hc2, hr1', hr2', Safety.index]
  refine ⟨p, hp, hindex ▸ hlt, ?_⟩
  simp only [hchk, hindex]

/-- Vectors for the first 14 bytes are what LOOKUP gives for the payload (41_vector_lookup.md R134). -/
theorem lookup_payload_of_hasVectors {roms : Roms} {n : List Byte} {e : Fin 14 → CharVec}
    (h : Safety.HasVectors roms n e) : lookup roms (payload n) = some (List.ofFn e) := by
  rw [lookup_eq_some_iff]
  apply List.ext_getElem?
  intro i
  rcases Nat.lt_or_ge i 14 with hi | hi
  · obtain ⟨b, hb, he⟩ := h ⟨i, hi⟩
    rw [List.getElem?_map, getElem?_payload n hi, hb, List.getElem?_map, List.getElem?_ofFn, dif_pos hi]
    exact congrArg some he
  · rw [List.getElem?_eq_none, List.getElem?_eq_none]
    · simpa using hi
    · simpa [payload] using .inl hi

theorem lookup_payload_of_badPayload {roms : Roms} {n : List Byte} (h : Safety.BadPayload roms n) :
    lookup roms (payload n) = none := by
  obtain ⟨i, b, hb, hnone⟩ := h
  rw [lookup_eq_none_iff]
  exact ⟨b, List.mem_of_getElem? ((getElem?_payload n i.isLt).trans hb), hnone⟩

theorem checkDigit_of_badPayload {roms : Roms} {n : List Byte} (h : Safety.BadPayload roms n) :
    checkDigit roms (payload n) = .error (.raised .invalidCharacter) := by
  rw [checkDigit, lookup_payload_of_badPayload h]

theorem exists_check_checkDigit {roms : Roms} {n : List Byte} {e : Fin 14 → CharVec} (h : Safety.HasVectors roms n e) :
    ∃ c : Byte, Safety.IsCheck roms e c ∧ checkDigit roms (payload n) = .ok c := by
  obtain ⟨p, hp, hchk⟩ := exists_check_datapath roms e
  exact ⟨p.chk, hchk, by simp only [checkDigit, lookup_payload_of_hasVectors h, hp]⟩

/-- Under well-formed tables the check character is an alphabet symbol (43_modular_adder_tree.md R179, R180). -/
theorem isAlphabetCode_of_isCheck {roms : Roms} (hw : roms.WellFormed) {e : Fin 14 → CharVec} {c : Byte}
    (h : Safety.IsCheck roms e c) : isAlphabetCode c = true := by
  obtain ⟨hlt, rfl⟩ := h
  exact (reverse_symbol hw ⟨Safety.index roms e, hlt⟩).1

end Sys2Proof.Machine
end

section
/-! COMPUTE and VERIFY whole (44_operations.md R200, R201, R205): the length gate, then CHECKDIGIT, then the packing of the
response. -/

namespace Sys2Proof.Machine

theorem lengthGateCompute_error {n : Nat} (h : n ≠ 14 ∧ n ≠ 15) : lengthGateCompute n = .error .invalidLength :=
  if_pos h

theorem lengthGateVerify_ok {n : Nat} (h : n = 15) : lengthGateVerify n = .ok () :=
  if_neg (not_not_intro h)

theorem lengthGateVerify_error {n : Nat} (h : n ≠ 15) : lengthGateVerify n = .error .invalidLength :=
  if_pos h

/-- Where the gate of R114 fails nothing is looked up (60_exceptions.md R224). -/
theorem computeFields_of_gate_error (roms : Roms) {x : List Byte}
    (h : (normalise x).length ≠ 14 ∧ (normalise x).length ≠ 15) :
    computeFields roms x = .error (.raised .invalidLength) := by
  simp only [computeFields, lengthGateCompute_error h]

/-- Past the gate of R114, COMPUTE packs CHECKDIGIT's character, or passes its error on. -/
theorem computeFields_of_gate_ok (roms : Roms) {x : List Byte}
    (h : (normalise x).length = 14 ∨ (normalise x).length = 15) :
    computeFields roms x = (checkDigit roms (payload (normalise x))).map okChar := by
  simp only [computeFields, lengthGateCompute_ok h]
  cases checkDigit roms (payload (normalise x)) <;> rfl

/-- Where the gate of R115 fails nothing is looked up (60_exceptions.md R224). -/
theorem verifyFields_of_gate_error (roms : Roms) {x : List Byte} (h : (normalise x).length ≠ 15) :
    verifyFields roms x = .error (.raised .invalidLength) := by
  simp only [verifyFields, lengthGateVerify_error h]

/-- Past the gate of R115, VERIFY compares CHECKDIGIT's character with N[14], or passes its error on. -/
theorem verifyFields_of_gate_ok (roms : Roms) {x : List Byte} (h : (normalise x).length = 15) :
    verifyFields roms x = (checkDigit roms (payload (normalise x))).map
      fun chk => okMatch (matchFlag chk (trailing (normalise x))) := by
  simp only [verifyFields, lengthGateVerify_ok h]
  cases checkDigit roms (payload (normalise x)) <;> rfl

/-- Settles O11: the length gate decides the first error; past it the answer is CHECKDIGIT's, which LOOKUP decides. -/
theorem computeAnswersCheckCharacter : Obligations.ComputeAnswersCheckCharacter := by
  intro s len
  rw [← normalise_rawString]
  refine ⟨rfl, fun hgate => ?_, fun hgate hbad => ?_, fun hgate e hvec => ?_⟩
  · exact answers_of_instrFields_raised (i := .compute len) (computeFields_of_gate_error s.roms hgate)
  · apply answers_of_instrFields_raised (i := .compute len) (e := .invalidCharacter)
    exact (computeFields_of_gate_ok s.roms hgate).trans (congrArg _ (checkDigit_of_badPayload hbad))
  · obtain ⟨c, hc, hcheck⟩ := exists_check_checkDigit hvec
    refine ⟨c, hc, fun hw => isAlphabetCode_of_isCheck hw hc, ?_⟩
    rw [← encodeResp_okChar]
    apply answers_of_instrFields_ok (i := .compute len)
    exact (computeFields_of_gate_ok s.roms hgate).trans (congrArg _ hcheck)

/-- MATCH is byte equality of CHK and N[14] (R205). -/
theorem matchFlag_trailing {n : List Byte} (h : n.length = 15) (c : Byte) :
    matchFlag c (trailing n) = true ↔ n[14]? = some c := by
  have hlt : 14 < n.length := by omega
  rw [matchFlag, beq_iff_eq, trailing, List.getD_eq_getElem n _ hlt, List.getElem?_eq_getElem hlt, Option.some_inj]
  exact eq_comm

/-- Settles O12: the length gate decides the first error, LOOKUP the second, and otherwise the comparator answers. -/
theorem verifyAnswersMatch : Obligations.VerifyAnswersMatch := by
  intro s len
  rw [← normalise_rawString]
  refine ⟨rfl, fun hgate => ?_, fun hgate hbad => ?_, fun hgate e hvec => ?_⟩
  · exact answers_of_instrFields_raised (i := .verify len) (verifyFields_of_gate_error s.roms hgate)
  · apply answers_of_instrFields_raised (i := .verify len) (e := .invalidCharacter)
    exact (verifyFields_of_gate_ok s.roms hgate).trans (congrArg _ (checkDigit_of_badPayload hbad))
  · obtain ⟨c, hc, hcheck⟩ := exists_check_checkDigit hvec
    refine ⟨c, hc, ?_⟩
    simp only [← matchFlag_trailing hgate]
    rw [← encodeResp_okMatch]
    apply answers_of_instrFields_ok (i := .verify len)
    exact (verifyFields_of_gate_ok s.roms hgate).trans (congrArg _ hcheck)

theorem hasVectors_append {roms : Roms} {p : List Byte} {e : Fin 14 → CharVec} (h : Safety.HasVectors roms p e)
    (y : List Byte) : Safety.HasVectors roms (p ++ y) e := by
  intro i
  obtain ⟨b, hb, he⟩ := h i
  exact ⟨b, (List.getElem?_append_left (List.getElem?_eq_some_iff.mp hb).1).trans hb, he⟩

/-- Settles O17: the last clause of `verifyAnswersMatch` at N = P, T; CHK is a symbol, so it is no T outside the alphabet. -/
theorem trailingComparedBytewise : Obligations.TrailingComparedBytewise := by
  intro s len x p e hw hp hn hvec
  have hlength : (p ++ [x]).length = 15 := by rw [List.length_append, hp]; rfl
  have htrailing : (p ++ [x])[14]? = some x := by simp [hp]
  obtain ⟨-, -, -, hmatch⟩ := verifyAnswersMatch s len
  rw [hn] at hmatch
  obtain ⟨c, hc, hanswers⟩ := hmatch hlength e (hasVectors_append hvec [x])
  have hsymbol := isAlphabetCode_of_isCheck hw hc
  simp only [htrailing, Option.some_inj, eq_comm (a := x)] at hanswers
  refine ⟨c, hc, hsymbol, hanswers, fun hx => ?_⟩
  have hne : c ≠ x := by
    rintro rfl
    exact Bool.false_ne_true (hx.symm.trans hsymbol)
  rwa [if_neg hne] at hanswers

end Sys2Proof.Machine
end

section
/-! STATUS and its cause (60_exceptions.md R220-R222, R224): the length gate is asked first, then LOOKUP on the payload, and the
response carries the STATUS of the end that was reached. -/

namespace Sys2Proof.Machine

/-! What a host reads back from a packed response is its fields (30_encoding.md R82, R83). -/

@[simp] theorem respStatus_encodeResp (f : RespFields) : respStatus (encodeResp f) = statusCode f.status := by
  have hstatus := (statusCode f.status).isLt
  apply BitVec.eq_of_toNat_eq
  rw [toNat_respStatus, toNat_encodeResp]
  omega

@[simp] theorem respMatch_encodeResp (f : RespFields) : respMatch (encodeResp f) = BitVec.ofBool f.matched := by
  have hmatch := f.matched.toNat_le
  have hstatus := (statusCode f.status).isLt
  apply BitVec.eq_of_toNat_eq
  rw [toNat_respMatch, toNat_encodeResp, BitVec.toNat_ofBool]
  omega

@[simp] theorem respChar_encodeResp (f : RespFields) : respChar (encodeResp f) = f.char := by
  have hmatch := f.matched.toNat_le
  have hstatus := (statusCode f.status).isLt
  apply BitVec.eq_of_toNat_eq
  rw [toNat_respChar, toNat_encodeResp]
  omega

/-- LOOKUP raises exactly when one of the first 14 bytes has no entry; N[14] is not asked (60_exceptions.md R222). -/
theorem lookup_payload_eq_none_iff (roms : Roms) (n : List Byte) :
    lookup roms (payload n) = none ↔ Safety.BadPayload roms n := by
  refine ⟨fun h => ?_, lookup_payload_of_badPayload⟩
  obtain ⟨b, hb, hnone⟩ := (lookup_eq_none_iff roms (payload n)).mp h
  obtain ⟨k, hk, hbyte⟩ := List.mem_take_iff_getElem.mp hb
  obtain ⟨hpayload, hlen⟩ := lt_min_iff.mp hk
  exact ⟨⟨k, hpayload⟩, b, List.getElem?_eq_some_iff.mpr ⟨hlen, hbyte⟩, hnone⟩

theorem not_badPayload_of_lookup {roms : Roms} {n : List Byte} {es : List CharVec}
    (h : lookup roms (payload n) = some es) : ¬ Safety.BadPayload roms n := by
  rw [← lookup_payload_eq_none_iff, h]
  nofun

/-- The three ends of either instruction, each with its cause, in the order of 60_exceptions.md R224. -/
theorem instrFields_cases (i : Instr) (roms : Roms) (x : List Byte) :
    (¬ Safety.GatePasses i (normalise x).length ∧ instrFields i roms x = .error (.raised .invalidLength)) ∨
    (Safety.GatePasses i (normalise x).length ∧ Safety.BadPayload roms (normalise x) ∧
      instrFields i roms x = .error (.raised .invalidCharacter)) ∨
    (Safety.GatePasses i (normalise x).length ∧ ¬ Safety.BadPayload roms (normalise x) ∧
      ∃ f : RespFields, f.status = .ok ∧ instrFields i roms x = .ok f) := by
  cases i with
  | compute len =>
    obtain ⟨hgate, h⟩ | ⟨hgate, ⟨hl, h⟩ | ⟨es, p, hl, -, h⟩⟩ := computeFields_cases roms x
    · exact .inl ⟨not_or.mpr hgate, h⟩
    · exact .inr (.inl ⟨hgate, (lookup_payload_eq_none_iff _ _).mp hl, h⟩)
    · exact .inr (.inr ⟨hgate, not_badPayload_of_lookup hl, _, rfl, h⟩)
  | verify len =>
    obtain ⟨hgate, h⟩ | ⟨hgate, ⟨hl, h⟩ | ⟨es, p, hl, -, h⟩⟩ := verifyFields_cases roms x
    · exact .inl ⟨hgate, h⟩
    · exact .inr (.inl ⟨hgate, (lookup_payload_eq_none_iff _ _).mp hl, h⟩)
    · exact .inr (.inr ⟨hgate, not_badPayload_of_lookup hl, _, rfl, h⟩)

/-- The three next states of either instruction: two error responses and a response with STATUS = OK (R223, R224). -/
theorem exec_next_cases {i : Instr} {s t : State} (h : exec i s = .next t) :
    let n := Safety.normal (Safety.raw s i.len)
    (¬ Safety.GatePasses i n.length ∧ t = raiseError .invalidLength s) ∨
    (Safety.GatePasses i n.length ∧ Safety.BadPayload s.roms n ∧ t = raiseError .invalidCharacter s) ∨
    (Safety.GatePasses i n.length ∧ ¬ Safety.BadPayload s.roms n ∧ ∃ f : RespFields, f.status = .ok ∧ t = respond f s) := by
  rw [← normalise_rawString]
  rw [exec_eq_finish] at h
  obtain ⟨hgate, hf⟩ | ⟨hgate, hbad, hf⟩ | ⟨hgate, hgood, f, hok, hf⟩ := instrFields_cases i s.roms (rawString s i.len)
  all_goals rw [hf] at h
  · exact .inl ⟨hgate, (Host.Outcome.next.inj h).symm⟩
  · exact .inr (.inl ⟨hgate, hbad, (Host.Outcome.next.inj h).symm⟩)
  · exact .inr (.inr ⟨hgate, hgood, f, hok, (Host.Outcome.next.inj h).symm⟩)

/-- Settles O14: the three ends exclude each other and carry three different STATUS codes, so each code names its cause. -/
theorem statusNamesTheError : Obligations.StatusNamesTheError := by
  intro i s t h
  obtain ⟨hgate, rfl⟩ | ⟨hgate, hbad, rfl⟩ | ⟨hgate, hgood, f, hok, rfl⟩ := exec_next_cases h
  · simp [hgate, errorFields, ErrorCode.status, statusCode]
  · simp [hgate, hbad, errorFields, ErrorCode.status, statusCode]
  · simp [hgate, hgood, hok, statusCode]

end Sys2Proof.Machine
end

section
/-! The default rows of P1 and P2 (42_weighted_accumulator.md R150; log 5) are invertible: what a row gives from a position's
entries determines them.

The two theorems of this section are not elaborated in the background: Lean then goes on only when all kernel checks before them
are done, so that the text after them does not add to the memory that the checks of the tests need. -/

namespace Sys2Proof.Machine

set_option Elab.async false

/-- A default row of P2 determines m2 and m3 modulo 3. -/
theorem defaultP2_determines (k : Fin 14) (a b a' b' : Fin 3)
    (h : a.val * defaultP2[k].k0.val + b.val * defaultP2[k].k2.val ≡
      a'.val * defaultP2[k].k0.val + b'.val * defaultP2[k].k2.val [MOD 3])
    (h' : a.val * defaultP2[k].k1.val + b.val * defaultP2[k].k3.val ≡
      a'.val * defaultP2[k].k1.val + b'.val * defaultP2[k].k3.val [MOD 3]) : a = a' ∧ b = b' := by
  rw [Fin.ext_iff, Fin.ext_iff]
  unfold Nat.ModEq at h h'
  fin_cases k <;> simp [defaultP2] at h h' <;> omega

/-- A default row of P1 determines m0 and m1 modulo 2. -/
theorem defaultP1_determines (k : Fin 14) (a b a' b' : Fin 2)
    (h : a.val * defaultP1[k].k0.val + b.val * defaultP1[k].k2.val ≡
      a'.val * defaultP1[k].k0.val + b'.val * defaultP1[k].k2.val [MOD 2])
    (h' : a.val * defaultP1[k].k1.val + b.val * defaultP1[k].k3.val ≡
      a'.val * defaultP1[k].k1.val + b'.val * defaultP1[k].k3.val [MOD 2]) : a = a' ∧ b = b' := by
  rw [Fin.ext_iff, Fin.ext_iff]
  unfold Nat.ModEq at h h'
  fin_cases k <;> simp [defaultP1] at h h' <;> omega

end Sys2Proof.Machine
end

section
/-! What a move of the host does to the block, said once (70_reset_and_hazards.md R267), and what that says of single fields of
the state (10_state.md R23-R30). -/

namespace Sys2Proof.Machine

/-- The block before and after a move of the host: stored or refused writes, an answered or a refused issue, reads, a reset. -/
inductive BlockChange (s : State) : HostMove → State → Prop where
  | rawStored {bytes : List Byte} (h : bytes.length ≤ rawMax) : BlockChange s (.writeRaw bytes) (setRawFrom 0 bytes s)
  | rawRefused {bytes : List Byte} (h : rawMax < bytes.length) : BlockChange s (.writeRaw bytes) s
  | byteStored {k : Nat} (b : Byte) (h : k < rawMax) : BlockChange s (.writeRawByte k b) (setRawByte k b s)
  | byteRefused {k : Nat} (b : Byte) (h : rawMax ≤ k) : BlockChange s (.writeRawByte k b) s
  | cmdStored (w : Word) : BlockChange s (.writeCmd w) (hostWriteCmd w s)
  | answered {f : RespFields} (h : step s = .next (respond f s)) : BlockChange s .issue (respond f s)
  | issueRefused : BlockChange s .issue (consumeRequest s)
  | flagRead : BlockChange s .readRespValid s
  | respRead : BlockChange s .readResp s
  | wasReset : BlockChange s .reset (hostReset s)

theorem move_issue_of_next {r : Run} {t : State} (h : step r.machine = .next t) :
    r.move .issue = { r with machine := t } := by
  simp only [Run.move, h, Run.take]

theorem move_issue_of_refused {r : Run} {x : Refusal} (h : step r.machine = .refused x) :
    r.move .issue = { r with machine := consumeRequest r.machine }.record (.refusal x) := by
  simp only [Run.move, h, Run.take]

theorem move_blockChange (r : Run) (m : HostMove) : BlockChange r.machine m (r.move m).machine := by
  cases m with
  | writeRaw bytes =>
    obtain ⟨hlen, h⟩ | ⟨hlen, h⟩ := writeRaw_cases bytes r
    · rw [h]
      exact .rawStored hlen
    · rw [h]
      exact .rawRefused hlen
  | writeRawByte k b =>
    obtain ⟨hk, h⟩ | ⟨hk, h⟩ := writeRawByte_cases k b r
    · rw [h]
      exact .byteStored b hk
    · rw [h]
      exact .byteRefused b hk
  | writeCmd w => exact .cmdStored w
  | issue =>
    obtain ⟨f, h⟩ | ⟨why, -, h⟩ := step_responds r.machine
    · rw [move_issue_of_next h]
      exact .answered h
    · rw [move_issue_of_refused h]
      exact .issueRefused
  | readRespValid => exact .flagRead
  | readResp =>
    rw [Run.move, readResp_machine]
    exact .respRead
  | reset => exact .wasReset

namespace BlockChange

variable {s t : State} {m : HostMove}

theorem roms_eq (h : BlockChange s m t) : t.roms = s.roms := by
  cases h <;> simp

/-- Only an issue writes RESP (10_state.md R24). -/
theorem resp_eq (h : BlockChange s m t) (hissue : m ≠ .issue) : t.resp = s.resp := by
  cases h with
  | answered _ | issueRefused => exact absurd rfl hissue
  | _ => simp

/-- Only a host write of CMD changes it (10_state.md R25). -/
theorem cmd_eq (h : BlockChange s m t) : t.cmd = (Safety.writesCmd m).getD s.cmd := by
  cases h <;> simp [Safety.writesCmd]

theorem raw_wf (h : BlockChange s m t) (hw : Memory.wf s.raw = true) : Memory.wf t.raw = true := by
  cases h with
  | rawStored hlen => exact setRawFrom_wf hw (by omega)
  | byteStored b hk => exact rawWrite_wf b hw hk
  | _ => exact hw

/-- RAW[k] is the byte the move writes there, or what it was (20_memory.md R51). -/
theorem rawRead_eq (h : BlockChange s m t) (hw : Memory.wf s.raw = true) (k : Nat) :
    rawRead t.raw k = (Safety.writesRaw m k).getD (rawRead s.raw k) := by
  cases h with
  | rawStored hlen =>
    rw [rawRead_setRawFrom hw (by omega), if_pos (Nat.zero_le k), Safety.writesRaw, if_pos hlen, Nat.sub_zero]
  | rawRefused hlen => rw [Safety.writesRaw, if_neg (Nat.not_le_of_lt hlen), Option.getD_none]
  | @byteStored j b hj =>
    rw [setRawByte_raw, rawRead_rawWrite hw, Safety.writesRaw]
    by_cases hjk : j = k
    · rw [if_pos hjk, if_pos ⟨hjk, hj⟩, Option.getD_some]
    · rw [if_neg hjk, if_neg (hjk ·.1), Option.getD_none]
  | byteRefused b hj => rw [Safety.writesRaw, if_neg (Nat.not_lt_of_le hj ·.2), Option.getD_none]
  | _ => rfl

/-- A mark is set by the write of its byte, kept by every other move but issue and reset, which clear it (log 4). -/
theorem rawWritten_iff (h : BlockChange s m t) (k : Fin rawMax) :
    t.rawWritten[k] = true ↔
      ((Safety.writesRaw m k.val).isSome = true ∨ (m ≠ .issue ∧ m ≠ .reset ∧ s.rawWritten[k] = true)) := by
  have hk := k.isLt
  cases h with
  | @rawStored bytes hlen =>
    have hbytes : (bytes[k.val]?).isSome = true ↔ k.val < bytes.length := by simp
    rw [setRawFrom_rawWritten, Safety.writesRaw, if_pos hlen, hbytes]
    simp
  | @rawRefused bytes hlen => simp [Safety.writesRaw, Nat.not_le_of_lt hlen]
  | @byteStored j b hj => 
    by_cases hjk : j = k.val
    · simp [Safety.writesRaw, hjk, hk]
    · simp [Safety.writesRaw, hjk]
  | @byteRefused j b hj => simp [Safety.writesRaw, Nat.not_lt_of_le hj]
  | cmdStored w => simp [Safety.writesRaw]
  | answered _ => simp [Safety.writesRaw, noneWritten]
  | issueRefused => simp [Safety.writesRaw, noneWritten]
  | flagRead => simp [Safety.writesRaw]
  | respRead => simp [Safety.writesRaw]
  | wasReset => simp [Safety.writesRaw, noneWritten]

end BlockChange

/-- Settles O10, from what a move does to the block. -/
theorem writtenMarksFollowHostWrites : Obligations.WrittenMarksFollowHostWrites :=
  fun r m k => (move_blockChange r m).rawWritten_iff k

/-- Settles O41, from what a move does to the block. -/
theorem rawHoldsLastWrite : Obligations.RawHoldsLastWrite :=
  fun r m k hw => (move_blockChange r m).rawRead_eq hw k

/-- Settles O37: both resets are the assignments they are defined by. -/
theorem resetClearsRespValid : Obligations.ResetClearsRespValid :=
  ⟨rfl, rfl, fun r => ⟨hostReset_respValid r.machine, hostReset_roms r.machine, hostReset_cmd r.machine,
    hostReset_raw r.machine, hostReset_resp r.machine, rfl, rfl⟩⟩

/-- Settles O42: the other case of either write stores, which needs at most 255 bytes or a position below 255. -/
theorem unpresentableWriteRefused : Obligations.UnpresentableWriteRefused := by
  intro r m hm
  have hrecorded : r.move m = r.record (.refusal .notPresentable) := by
    obtain ⟨bytes, rfl, hlen⟩ | ⟨k, b, rfl, hk⟩ := hm
    · obtain ⟨hle, -⟩ | ⟨-, h⟩ := writeRaw_cases bytes r
      · exact absurd hle (Nat.not_le_of_lt hlen)
      · exact h
    · obtain ⟨hlt, -⟩ | ⟨-, h⟩ := writeRawByte_cases k b r
      · exact absurd hlt (Nat.not_lt_of_le hk)
      · exact h
  rw [hrecorded]
  exact ⟨record_machine _ r, (mem_record _ _ r).mpr (.inr rfl)⟩

end Sys2Proof.Machine
end

section
/-! Facts of one move carried over any sequence of moves (70_reset_and_hazards.md R268), and the outcome set of a run
(60_exceptions.md R233). -/

namespace Sys2Proof.Machine

/-- What the start has and every move of the sequence keeps, the end has. -/
theorem moves_induction {P : Run → Prop} {r : Run} {ms : List HostMove} (hstart : P r)
    (hmove : ∀ q : Run, P q → ∀ m ∈ ms, P (q.move m)) : P (r.moves ms) :=
  List.foldlRecOn ms _ hstart hmove

/-- Settles O40: no move changes a ROM. -/
theorem romsNeverChange : Obligations.RomsNeverChange :=
  fun r _ => moves_induction (P := fun q => q.machine.roms = r.machine.roms) rfl
    fun q hq m _ => (move_blockChange q m).roms_eq.trans hq

theorem moves_resp {r : Run} {ms : List HostMove} (hissue : HostMove.issue ∉ ms) :
    (r.moves ms).machine.resp = r.machine.resp :=
  moves_induction (P := fun q => q.machine.resp = r.machine.resp) rfl
    fun q hq m hm => ((move_blockChange q m).resp_eq (ne_of_mem_of_not_mem hm hissue)).trans hq

theorem moves_respValid {r : Run} {ms : List HostMove} (hissue : HostMove.issue ∉ ms) (hreset : HostMove.reset ∉ ms) :
    (r.moves ms).machine.respValid = r.machine.respValid :=
  moves_induction (P := fun q => q.machine.respValid = r.machine.respValid) rfl
    fun q hq m hm => (move_respValid q m (ne_of_mem_of_not_mem hm hreset) (ne_of_mem_of_not_mem hm hissue)).trans hq

/-- Settles O39: of all moves only an issue writes RESP, and only an issue or a reset RESP_VALID. -/
theorem responseHeldBetweenIssues : Obligations.ResponseHeldBetweenIssues :=
  fun _ _ hissue => ⟨moves_resp hissue, moves_respValid hissue⟩

/-- Settles O47, by induction on the moves: the last word written is the last of the later ones, or else the first move's. -/
theorem cmdHoldsLastWrite : Obligations.CmdHoldsLastWrite := by
  refine ⟨fun r w => hostWriteCmd_cmd w r.machine, fun r ms => ?_⟩
  induction ms generalizing r with
  | nil => rfl
  | cons m ms ih =>
    rw [moves_cons, ih, (move_blockChange r m).cmd_eq]
    cases hw : Safety.writesCmd m with
    | none => rw [List.filterMap_cons_none hw, Option.getD_none]
    | some w =>
      rw [List.filterMap_cons_some hw, List.getLast?_cons]
      rfl

/-- What a move does to the outcome set: nothing, or it records a refusal, or it is a read of RESP before a response. -/
theorem move_outcomes_cases (r : Run) (m : HostMove) :
    (r.move m).outcomes = r.outcomes ∨
    (∃ x, (r.move m).outcomes = (r.record (.refusal x)).outcomes) ∨
    (m = .readResp ∧ r.machine.respValid = false ∧
      (r.move m).outcomes = (r.record (.fault .readBeforeResponse)).outcomes) := by
  cases m with
  | writeRaw bytes =>
    obtain ⟨-, h⟩ | ⟨-, h⟩ := writeRaw_cases bytes r
    · rw [h]
      exact .inl rfl
    · exact .inr (.inl ⟨_, congrArg Run.outcomes h⟩)
  | writeRawByte k b =>
    obtain ⟨-, h⟩ | ⟨-, h⟩ := writeRawByte_cases k b r
    · rw [h]
      exact .inl rfl
    · exact .inr (.inl ⟨_, congrArg Run.outcomes h⟩)
  | issue =>
    obtain ⟨f, h⟩ | ⟨why, h⟩ := issue_cases r
    · rw [h]
      exact .inl rfl
    · rw [h]
      exact .inr (.inl ⟨.refusedRequest why, rfl⟩)
  | readResp =>
    cases hv : r.machine.respValid with
    | true => exact .inl (readResp_after_response r hv).1
    | false => exact .inr (.inr ⟨rfl, rfl, congrArg Run.outcomes (move_readResp_of_error (hostReadResp_of_not_valid hv))⟩)
  | writeCmd _ | readRespValid | reset => exact .inl rfl

theorem mem_move_outcomes {r : Run} {o : Recorded} (ho : o ∈ r.outcomes) (m : HostMove) : o ∈ (r.move m).outcomes := by
  obtain h | ⟨x, h⟩ | ⟨-, -, h⟩ := move_outcomes_cases r m <;> rw [h]
  · exact ho
  · exact (mem_record _ _ r).mpr (.inl ho)
  · exact (mem_record _ _ r).mpr (.inl ho)

theorem mem_moves_outcomes {r : Run} {o : Recorded} (ho : o ∈ r.outcomes) (ms : List HostMove) :
    o ∈ (r.moves ms).outcomes :=
  moves_induction (P := fun q => o ∈ q.outcomes) ho fun _ hq m _ => mem_move_outcomes hq m

/-- Settles O44: no move takes an outcome out of the set, so an empty set was empty before. -/
theorem outcomesPersist : Obligations.OutcomesPersist := by
  refine fun r ms => ⟨fun o ho => mem_moves_outcomes ho ms, fun hgood => ?_⟩
  apply List.eq_nil_iff_forall_not_mem.mpr
  intro o ho
  have hlater := mem_moves_outcomes ho ms
  rw [hgood] at hlater
  nomatch hlater

/-- A fault that a move adds is that of a read of RESP before a response (60_exceptions.md R233). -/
theorem fault_of_mem_move {r : Run} {m : HostMove} {f : Fault} (hafter : Recorded.fault f ∈ (r.move m).outcomes)
    (hbefore : Recorded.fault f ∉ r.outcomes) :
    f = .readBeforeResponse ∧ m = .readResp ∧ r.machine.respValid = false := by
  obtain h | ⟨x, h⟩ | ⟨hm, hv, h⟩ := move_outcomes_cases r m <;> rw [h] at hafter
  · exact absurd hafter hbefore
  · obtain hf | hf := (mem_record _ _ r).mp hafter
    · exact absurd hf hbefore
    · nomatch hf
  · obtain hf | hf := (mem_record _ _ r).mp hafter
    · exact absurd hf hbefore
    · exact ⟨Recorded.fault.inj hf, hm, hv⟩

/-- Settles O45: a move adds no fault but that of an early read; the start has none. -/
theorem onlyEarlyReadsFault : Obligations.OnlyEarlyReadsFault := by
  refine ⟨fun r m f => fault_of_mem_move, fun ms => ⟨?_, fun hread f => ?_⟩⟩
  · apply moves_induction (P := fun q => Recorded.fault .internalInvariant ∉ q.outcomes) List.not_mem_nil
    intro q hq m _ hafter
    nomatch (fault_of_mem_move hafter hq).1
  · apply moves_induction (P := fun q => Recorded.fault f ∉ q.outcomes) List.not_mem_nil
    intro q hq m hm hafter
    exact hread ((fault_of_mem_move hafter hq).2.1 ▸ hm)

end Sys2Proof.Machine
end

section
/-! The CMD word as a number (30_encoding.md R81, R84, R85), and decoding as the inverse of encoding, on words and on bytes. -/

namespace Sys2Proof

theorem toNat_and_lowByte (w : Word) : (w &&& 0x00FF#16).toNat = w.toNat % 256 := by
  rw [BitVec.toNat_and]
  exact Nat.and_two_pow_sub_one_eq_mod w.toNat 8

/-- A match under the mask 0x00FF compares the low byte. -/
theorem and_lowByte_eq_iff (w : Word) {k : Nat} (hk : k < 256) :
    w &&& 0x00FF#16 = BitVec.ofNat 16 k ↔ w.toNat % 256 = k := by
  rw [← BitVec.toNat_inj, toNat_and_lowByte, BitVec.toNat_ofNat, Nat.mod_eq_of_lt (show k < 2 ^ 16 by omega)]

/-- The operation map of R84 by the value of the low byte. -/
theorem decodeCmd_eq (w : Word) : decodeCmd w =
    if w.toNat % 256 = 0 then .ok (.compute (cmdLen w))
    else if w.toNat % 256 = 1 then .ok (.verify (cmdLen w))
    else .error .reservedBits := by
  have hcompute := and_lowByte_eq_iff w (show 0 < 256 by decide)
  have hverify := and_lowByte_eq_iff w (show 1 < 256 by decide)
  simp only [decodeCmd, hcompute, hverify]

/-- Settles O2: with RSVD = 0 the low byte is OP, and with another RSVD it is neither 0 nor 1. -/
theorem operationMap : Obligations.OperationMap := by
  intro w
  have hlen : cmdLen w = BitVec.ofNat 8 (w.toNat / 256) := highByte_eq_ofNat w
  rw [decodeCmd_eq, hlen]
  by_cases hrsvd : w.toNat / 2 % 128 = 0
  · by_cases hop : w.toNat % 2 = 0
    · rw [if_pos hrsvd, if_pos hop, if_pos (by omega)]
    · rw [if_pos hrsvd, if_neg hop, if_neg (by omega), if_pos (by omega)]
  · rw [if_neg hrsvd, if_neg (by omega), if_neg (by omega)]

theorem toNat_encodeCmd_compute (len : Byte) : (encodeCmd (.compute len)).toNat = 256 * len.toNat :=
  toNat_word_append len 0#8

theorem toNat_encodeCmd_verify (len : Byte) : (encodeCmd (.verify len)).toNat = 256 * len.toNat + 1 :=
  toNat_word_append len 1#8

@[simp] theorem decodeCmd_encodeCmd (i : Instr) : decodeCmd (encodeCmd i) = .ok i := by
  cases i with
  | compute len =>
    have hlow : (encodeCmd (.compute len)).toNat % 256 = 0 := by rw [toNat_encodeCmd_compute]; omega
    rw [decodeCmd_eq, if_pos hlow, (Laws.CmdWord.compute len).2]
    rfl
  | verify len =>
    have hlow : (encodeCmd (.verify len)).toNat % 256 = 1 := by rw [toNat_encodeCmd_verify]; omega
    rw [decodeCmd_eq, if_neg (by omega), if_pos hlow, (Laws.CmdWord.verify len).2]
    rfl

/-- A CMD word decodes to the one instruction whose encoding it is (R84). -/
theorem decodeCmd_eq_ok_iff {w : Word} {i : Instr} : decodeCmd w = .ok i ↔ w = encodeCmd i := by
  refine ⟨fun h => ?_, fun h => h ▸ decodeCmd_encodeCmd i⟩
  have hlen := toNat_cmdLen w
  rw [decodeCmd_eq] at h
  apply BitVec.eq_of_toNat_eq
  split at h
  · cases h
    rw [toNat_encodeCmd_compute]
    omega
  · split at h
    · cases h
      rw [toNat_encodeCmd_verify]
      omega
    · nomatch h

/-- Two bytes make up a word exactly when they are its bytes (20_memory.md R53). -/
theorem wordOfBytes_eq_iff {b0 b1 : Byte} {w : Word} : wordOfBytes b0 b1 = w ↔ [b0, b1] = bytesOfWord w := by
  constructor
  · rintro rfl
    have h0 := b0.isLt
    rw [bytesOfWord_eq_ofNat, toNat_wordOfBytes]
    simp [← BitVec.toNat_inj]
    omega
  · rw [bytesOfWord_eq_ofNat]
    rintro ⟨⟩
    exact wordOfBytes_mod_div w

theorem decodeBytes_eq_ok_iff (b0 b1 : Byte) (tail rest : List Byte) (i : Instr) :
    decodeBytes (b0 :: b1 :: tail) = .ok (i, rest) ↔ decodeCmd (wordOfBytes b0 b1) = .ok i ∧ tail = rest := by
  rw [decodeBytes]
  cases decodeCmd (wordOfBytes b0 b1) <;> simp

/-- Settles O3: fewer than two bytes neither decode nor encode; otherwise the two bytes are those of the word that the
instruction's encoding is. -/
theorem encodeDecodeAgree : Obligations.EncodeDecodeAgree := by
  intro bytes rest i
  match bytes with
  | [] => simp [decodeBytes, encodeBytes, bytesOfWord]
  | [b] => simp [decodeBytes, encodeBytes, bytesOfWord]
  | b0 :: b1 :: tail =>
    have hsplit : b0 :: b1 :: tail = encodeBytes i ++ rest ↔ [b0, b1] = encodeBytes i ∧ tail = rest := by
      simp [encodeBytes, bytesOfWord, and_assoc]
    rw [decodeBytes_eq_ok_iff, decodeCmd_eq_ok_iff, wordOfBytes_eq_iff, hsplit, encodeBytes]

/-- Settles O1: each word is decoded by evaluation. -/
theorem decodeTableWords : Obligations.DecodeTableWords := by
  unfold Obligations.DecodeTableWords
  decide

end Sys2Proof
end

section
/-! The RESP word and its reader (30_encoding.md R82, R83, 93_implementation_defined.md I5): a word is the packing of its four
fields. -/

namespace Sys2Proof.Machine

theorem statusOfCode_eq_some_iff (c : BitVec 2) (st : Status) : statusOfCode c = some st ↔ c = statusCode st := by
  cases st <;> revert c <;> decide

theorem beq_one_eq_iff (b : BitVec 1) (m : Bool) : (b == 1#1) = m ↔ b = BitVec.ofBool m := by
  revert b m; decide

/-- The reader wants RSVD = 0 and takes the three other fields as they stand. -/
theorem decodeResp_eq_some_iff {w : Word} {f : RespFields} : decodeResp w = some f ↔
    respRsvd w = 0#5 ∧ respStatus w = statusCode f.status ∧ respMatch w = BitVec.ofBool f.matched ∧ respChar w = f.char := by
  obtain ⟨st, m, c⟩ := f
  rw [← statusOfCode_eq_some_iff, ← beq_one_eq_iff, decodeResp]
  by_cases hrsvd : respRsvd w = 0#5
  · cases statusOfCode (respStatus w) <;> simp [hrsvd]
  · simp [hrsvd]

/-- A word with the four fields of a packed response is that response. -/
theorem eq_encodeResp_of_fields {w : Word} {f : RespFields} (hrsvd : respRsvd w = 0#5)
    (hstatus : respStatus w = statusCode f.status) (hmatch : respMatch w = BitVec.ofBool f.matched)
    (hchar : respChar w = f.char) : w = encodeResp f := by
  have hr := toNat_respRsvd w
  have hs := toNat_respStatus w
  have hm := toNat_respMatch w
  have hc := toNat_respChar w
  rw [hrsvd, BitVec.toNat_ofNat] at hr
  rw [hstatus] at hs
  rw [hmatch, BitVec.toNat_ofBool] at hm
  rw [hchar] at hc
  apply BitVec.eq_of_toNat_eq
  rw [toNat_encodeResp]
  omega

theorem decodeResp_eq_some_iff_encodeResp (w : Word) (f : RespFields) : decodeResp w = some f ↔ w = encodeResp f := by
  rw [decodeResp_eq_some_iff]
  constructor
  · rintro ⟨hrsvd, hstatus, hmatch, hchar⟩
    exact eq_encodeResp_of_fields hrsvd hstatus hmatch hchar
  · rintro rfl
    exact ⟨respRsvd_encodeResp f, respStatus_encodeResp f, respMatch_encodeResp f, respChar_encodeResp f⟩

theorem toNat_statusCode (st : Status) : (statusCode st).toNat =
    match st with | .ok => 0 | .invalidLength => 1 | .invalidCharacter => 2 := by
  cases st <;> rfl

theorem encodeResp_mod_four_ne_three (f : RespFields) : (encodeResp f).toNat % 4 ≠ 3 := by
  have hcode : (statusCode f.status).toNat ≤ 2 := by cases f.status <;> decide
  rw [toNat_encodeResp]
  omega

/-- Settles O5: a packed word is its fields' weighted sum; a word that is read is a packed one, and no packed one has STATUS
0b11. -/
theorem respWordLayout : Obligations.RespWordLayout := by
  refine ⟨fun f => ?_, decodeResp_eq_some_iff_encodeResp, fun w hw => ?_⟩
  · rw [toNat_encodeResp, toNat_statusCode, ← Nat.add_assoc]
    cases f.matched <;> rfl
  · rw [Option.eq_none_iff_forall_ne_some]
    intro f hf
    rw [(decodeResp_eq_some_iff_encodeResp w f).mp hf] at hw
    exact encodeResp_mod_four_ne_three f hw

/-- Settles O6: a valid read gives the stored word behind the hardwired bits. -/
theorem reservedRespBitsReadZero : Obligations.ReservedRespBitsReadZero :=
  fun s hv => ⟨_, hostReadResp_of_valid hv, getLsbD_hardwireRsvd s.resp⟩

end Sys2Proof.Machine
end

section
/-! The issue step (44_operations.md R202): a request is fetched exactly when it is well-formed (30_encoding.md R85). -/

namespace Sys2Proof.Machine

theorem allWritten_iff_writtenUpTo (n : Nat) (s : State) : allWritten n s.rawWritten = true ↔ Safety.WrittenUpTo n s :=
  allWritten_iff n s.rawWritten

theorem step_of_fetchRequest_ok {s : State} {i : Instr} (h : fetchRequest s = .ok i) : step s = exec i s := by
  rw [step, h]

theorem bytesOfWord_injective : Function.Injective bytesOfWord :=
  fun _ _ h => (wordOfBytes_eq_iff.mpr rfl).symm.trans (wordOfBytes_eq_iff.mpr h)

/-- Settles O8: the bytes of CMD decode to the instruction whose encoding CMD is, which is then fetched. -/
theorem stepRunsDecodedInstruction : Obligations.StepRunsDecodedInstruction := by
  intro s i hdecode hwritten
  have hcmd : s.cmd = encodeCmd i := by
    have hbytes := (encodeDecodeAgree _ _ _).mp hdecode
    rw [List.append_nil] at hbytes
    exact bytesOfWord_injective hbytes
  apply step_of_fetchRequest_ok
  exact fetchRequest_ok.mpr ⟨decodeCmd_eq_ok_iff.mpr hcmd, (allWritten_iff_writtenUpTo _ s).mpr hwritten⟩

theorem cmdRsvd_encodeCmd (i : Instr) : cmdRsvd (encodeCmd i) = 0#7 := by
  cases i with
  | compute len => exact (Laws.CmdWord.compute len).1
  | verify len => exact (Laws.CmdWord.verify len).1

theorem cmdLen_encodeCmd (i : Instr) : cmdLen (encodeCmd i) = i.len := by
  cases i with
  | compute len => exact (Laws.CmdWord.compute len).2
  | verify len => exact (Laws.CmdWord.verify len).2

/-- With RSVD = 0 a word is the encoding of the row OP selects (30_encoding.md R84). -/
theorem exists_eq_encodeCmd_of_cmdRsvd {w : Word} (h : cmdRsvd w = 0#7) : ∃ i, w = encodeCmd i := by
  have hrsvd : w.toNat / 2 % 128 = 0 := by rw [← toNat_cmdRsvd, h]; rfl
  have hdecode := operationMap w
  rw [if_pos hrsvd] at hdecode
  split at hdecode <;> exact ⟨_, decodeCmd_eq_ok_iff.mp hdecode⟩

/-- R85's two conditions are those under which the fetch gives an instruction. -/
theorem wellFormedRequest_iff (s : State) : Safety.WellFormedRequest s ↔ ∃ i, fetchRequest s = .ok i := by
  simp only [Safety.WellFormedRequest, fetchRequest_ok, decodeCmd_eq_ok_iff, allWritten_iff_writtenUpTo]
  constructor
  · rintro ⟨hrsvd, hwritten⟩
    obtain ⟨i, hi⟩ := exists_eq_encodeCmd_of_cmdRsvd hrsvd
    rw [hi, cmdLen_encodeCmd] at hwritten
    exact ⟨i, hi, hwritten⟩
  · rintro ⟨i, hi, hwritten⟩
    rw [hi, cmdRsvd_encodeCmd, cmdLen_encodeCmd]
    exact ⟨rfl, hwritten⟩

/-- Settles O9: a well-formed request is fetched and answered; an ill-formed one is refused, and the refusal
uses up its marks. -/
theorem issueAdmitsExactlyWellFormed : Obligations.IssueAdmitsExactlyWellFormed := by
  intro r
  rw [wellFormedRequest_iff]
  refine ⟨fun ⟨i, hi⟩ => ?_, fun hill => ?_⟩
  · obtain ⟨f, hf, -⟩ := exec_responds i r.machine
    have hstep := (step_of_fetchRequest_ok hi).trans hf
    exact ⟨_, hstep, respond_respValid f r.machine, move_issue_of_next hstep⟩
  · obtain ⟨why, -, hstep⟩ | ⟨i, hi, -⟩ := step_cases r.machine
    · rw [move_issue_of_refused hstep]
      exact ⟨⟨why, hstep, (mem_record _ _ _).mpr (.inr rfl)⟩, consumeRequest_resp _, consumeRequest_respValid _,
        consumeRequest_cmd _, consumeRequest_raw _, consumeRequest_roms _, record_observed _ _⟩
    · exact absurd ⟨i, hi⟩ hill

end Sys2Proof.Machine
end

section
/-! The invariant of the block (70_reset_and_hazards.md I1): the default tables meet their constraints, every response is
legal, and RAW stays canonical. -/

namespace Sys2Proof

theorem CharVec.eq_of_entries_eq {v w : CharVec} (h0 : v.m0 = w.m0) (h1 : v.m1 = w.m1) (h2 : v.m2 = w.m2)
    (h3 : v.m3 = w.m3) : v = w := by
  cases v
  cases w
  rw [CharVec.mk.injEq]
  exact ⟨h0, h1, h2, h3⟩

theorem vecOfIndex_injective : Function.Injective vecOfIndex := by
  intro v w h
  obtain ⟨hv0, hv1, hv2, hv3⟩ := Machine.vecOfIndex_digits v
  obtain ⟨hw0, hw1, hw2, hw3⟩ := Machine.vecOfIndex_digits w
  apply Fin.ext
  rw [← Machine.packV_unpack v.val, ← Machine.packV_unpack w.val, ← hv0, ← hv1, ← hv2, ← hv3, h, hw0, hw1, hw2, hw3]

theorem vecOfIndex_surjective : Function.Surjective vecOfIndex := by
  rintro ⟨a, b, c, d⟩
  have hlt : Machine.packV a.val b.val c.val d.val < nV := by
    simp only [Machine.packV, Machine.vR2Weight, nV]
    omega
  obtain ⟨h0, h1, h2, h3⟩ := Machine.unpack_packV d.val a.isLt b.isLt c.isLt
  obtain ⟨hm0, hm1, hm2, hm3⟩ := Machine.vecOfIndex_digits ⟨_, hlt⟩
  exact ⟨⟨_, hlt⟩, CharVec.eq_of_entries_eq (Fin.ext (hm0.trans h0)) (Fin.ext (hm1.trans h1)) (Fin.ext (hm2.trans h2))
    (Fin.ext (hm3.trans h3))⟩

/-- Tables in which REVERSE inverts ALPHABET and lists every symbol are well-formed: ALPHABET is then one-to-one and onto, as
the reading of the index is. -/
theorem Roms.wellFormed_of_reverse {roms : Roms}
    (codes : ∀ b : Byte, (Machine.alphabetAt roms b).isSome = isAlphabetCode b)
    (inverse : ∀ v : Fin nV, Machine.alphabetAt roms roms.reverse[v] = some (vecOfIndex v))
    (listed : ∀ b : Byte, isAlphabetCode b = true → ∃ v : Fin nV, roms.reverse[v] = b) : roms.WellFormed where
  codes := codes
  inverse := inverse
  onto e := by
    obtain ⟨v, rfl⟩ := vecOfIndex_surjective e
    exact ⟨_, inverse v⟩
  oneToOne a b e ha hb := by
    obtain ⟨v, rfl⟩ := listed a ((codes a).symm.trans (Option.isSome_of_eq_some ha))
    obtain ⟨w, rfl⟩ := listed b ((codes b).symm.trans (Option.isSome_of_eq_some hb))
    have hvec : some (vecOfIndex v) = some (vecOfIndex w) := (inverse v).symm.trans (ha.trans (hb.symm.trans (inverse w)))
    rw [vecOfIndex_injective (Option.some.inj hvec)]

namespace Machine

/-- The default tables (log 5) meet the constraints of 41_vector_lookup.md R138 and 43_modular_adder_tree.md R179. -/
theorem defaultRoms_wellFormed : defaultRoms.WellFormed :=
  Roms.wellFormed_of_reverse (by decide +kernel) (by decide +kernel) (by decide +kernel)

/-- Settles O34: RAW lists nothing at reset, the tables are the default ones, and RESP_VALID is 0. -/
theorem resetInvariant : Obligations.ResetInvariant :=
  ⟨⟨rfl, defaultRoms_wellFormed, nofun⟩, rfl⟩

theorem legal_errorFields (e : ErrorCode) : (errorFields e).legal = true := by
  cases e <;> rfl

theorem legal_okMatch (m : Bool) : (okMatch m).legal = true := rfl

theorem legal_okChar {c : Byte} (h : isAlphabetCode c = true) : (okChar c).legal = true := by
  simp [RespFields.legal, okChar, h]

theorem isAlphabetCode_of_datapath {roms : Roms} (hw : roms.WellFormed) {d : List Nat} {p : Datapath}
    (h : datapath roms d = .ok p) : isAlphabetCode p.chk = true := by
  obtain ⟨q, hq, -, -, -, -, -, -, -, -, -, -, hlt, hchk⟩ := datapath_ok roms d
  rw [Except.ok.inj (h.symm.trans hq), hchk]
  exact (reverse_symbol hw ⟨q.v, hlt⟩).1

/-- A success carries CHK, an alphabet symbol, or the match bit (44_operations.md R200, R201). -/
theorem legal_of_instrFields_ok {roms : Roms} (hw : roms.WellFormed) {i : Instr} {x : List Byte} {f : RespFields}
    (h : instrFields i roms x = .ok f) : f.legal = true := by
  cases i with
  | compute len =>
    obtain ⟨-, hc⟩ | ⟨-, ⟨-, hc⟩ | ⟨es, p, -, hp, hc⟩⟩ := computeFields_cases roms x
    · nomatch hc.symm.trans h
    · nomatch hc.symm.trans h
    · rw [← Except.ok.inj (hc.symm.trans h)]
      exact legal_okChar (isAlphabetCode_of_datapath hw hp)
  | verify len =>
    obtain ⟨-, hc⟩ | ⟨-, ⟨-, hc⟩ | ⟨es, p, -, -, hc⟩⟩ := verifyFields_cases roms x
    · nomatch hc.symm.trans h
    · nomatch hc.symm.trans h
    · rw [← Except.ok.inj (hc.symm.trans h)]
      exact legal_okMatch _

/-- An admitted request leaves the state of one legal response. -/
theorem eq_respond_legal_of_step_next {s t : State} (hw : s.roms.WellFormed) (h : step s = .next t) :
    ∃ f : RespFields, f.legal = true ∧ t = respond f s := by
  obtain ⟨why, -, hr⟩ | ⟨i, -, hi⟩ := step_cases s
  · nomatch h.symm.trans hr
  · obtain ⟨f, hexec, hf⟩ := exec_responds i s
    refine ⟨f, ?_, Host.Outcome.next.inj (h.symm.trans (hi.trans hexec))⟩
    obtain hok | ⟨e, -, rfl⟩ := hf
    · exact legal_of_instrFields_ok hw hok
    · exact legal_errorFields e

/-- Settles O35: a step writes one legal response and leaves RAW and the tables. -/
theorem stepKeepsInvariant : Obligations.StepKeepsInvariant := by
  rintro s t ⟨hraw, hroms, -⟩ h
  obtain ⟨f, hlegal, rfl⟩ := eq_respond_legal_of_step_next hroms h
  exact ⟨hraw, hroms, fun _ => ⟨f, hlegal, rfl⟩⟩

/-- Settles O36: RAW stays canonical and the tables stay in every move; RESP is the issue's, or is as it was. -/
theorem everyMoveKeepsInvariant : Obligations.EveryMoveKeepsInvariant := by
  intro r m hinv
  have hchange := move_blockChange r m
  generalize (r.move m).machine = t at hchange ⊢
  refine ⟨hchange.raw_wf hinv.raw, hchange.roms_eq ▸ hinv.roms, ?_⟩
  cases hchange with
  | answered h => exact (stepKeepsInvariant _ _ hinv h).resp
  | rawStored | byteStored => simpa using hinv.resp
  | wasReset => nofun
  | _ => exact hinv.resp

end Machine

end Sys2Proof
end

section
/-! The normalised identifier (40_front_end.md R110-R112): it holds no '-' and no lower-case letter, so it normalises to
itself, and ALPHABET is asked at other bytes only. -/

namespace Sys2Proof.Machine

/-- A byte that normalising leaves as it is: not '-', and not in 0x61..0x7A. -/
def IsNormal (b : Byte) : Prop := b ≠ 0x2D#8 ∧ ¬ (0x61 ≤ b.toNat ∧ b.toNat ≤ 0x7A)

theorem upper_of_isNormal {b : Byte} (h : IsNormal b) : Safety.upper b = b := if_neg h.2

theorem isNormal_upper {b : Byte} (h : b ≠ 0x2D#8) : IsNormal (Safety.upper b) := by
  have hb := b.isLt
  have hne : b.toNat ≠ 0x2D := fun e => h (BitVec.eq_of_toNat_eq e)
  rw [IsNormal, ← upcase_eq_upper, ne_eq, ← BitVec.toNat_inj, toNat_upcase, BitVec.toNat_ofNat]
  split <;> omega

theorem isNormal_of_mem_normal {x : List Byte} {b : Byte} (h : b ∈ Safety.normal x) : IsNormal b := by
  obtain ⟨c, hc, rfl⟩ := List.mem_map.mp h
  exact isNormal_upper (bne_iff_ne.mp (List.mem_filter.mp hc).2)

theorem normal_of_isNormal {x : List Byte} (h : ∀ b ∈ x, IsNormal b) : Safety.normal x = x := by
  rw [Safety.normal, List.filter_eq_self.mpr fun b hb => bne_iff_ne.mpr (h b hb).1]
  exact (List.map_congr_left fun b hb => upper_of_isNormal (h b hb)).trans (List.map_id' x)

theorem normal_normal (x : List Byte) : Safety.normal (Safety.normal x) = Safety.normal x :=
  normal_of_isNormal fun _ => isNormal_of_mem_normal

/-- Settles O19: a normalised string is made of bytes that normalising leaves. -/
theorem normaliserIdempotent : Obligations.NormaliserIdempotent := by
  intro x
  simp only [normalise_eq_normal]
  exact ⟨normal_normal x, fun _ => isNormal_of_mem_normal⟩

theorem computeFields_normal (roms : Roms) (x : List Byte) : computeFields roms (Safety.normal x) = computeFields roms x := by
  simp only [computeFields, normalise_eq_normal, normal_normal]

theorem verifyFields_normal (roms : Roms) (x : List Byte) : verifyFields roms (Safety.normal x) = verifyFields roms x := by
  simp only [verifyFields, normalise_eq_normal, normal_normal]

/-- Settles O20: the fields are a function of the normalised identifier, and normalising twice is normalising once. -/
theorem formatInsensitive : Obligations.FormatInsensitive := by
  intro s u len len' hroms hraw
  constructor
  · apply exists_answers_of_instrFields_eq (i := .compute len) (j := .compute len')
    show computeFields s.roms (rawString s len) = computeFields u.roms (rawString u len')
    rw [rawString_eq_raw, rawString_eq_raw, hraw, computeFields_normal, hroms]
  · apply exists_answers_of_instrFields_eq (i := .verify len) (j := .verify len')
    show verifyFields s.roms (rawString s len) = verifyFields u.roms (rawString u len')
    rw [rawString_eq_raw, rawString_eq_raw, hraw, verifyFields_normal, hroms]

theorem lookup_congr {roms roms' : Roms} {pl : List Byte} (h : ∀ b ∈ pl, alphabetAt roms b = alphabetAt roms' b) :
    lookup roms pl = lookup roms' pl := by
  apply Option.ext
  intro es
  rw [lookup_eq_some_iff, lookup_eq_some_iff, List.map_congr_left h]

/-- Past LOOKUP nothing reads ALPHABET. -/
theorem datapath_congr {roms roms' : Roms} (hp1 : roms.p1 = roms'.p1) (hp2 : roms.p2 = roms'.p2)
    (hreverse : roms.reverse = roms'.reverse) (d : List Nat) : datapath roms d = datapath roms' d := by
  have h : roms' = { roms with alphabet := roms'.alphabet } := by rw [hp1, hp2, hreverse]
  rw [h]
  rfl

/-- Tables that differ in ALPHABET at '-' and 0x61..0x7A only give every instruction the same fields. -/
theorem instrFields_congr {roms roms' : Roms} (hp1 : roms.p1 = roms'.p1) (hp2 : roms.p2 = roms'.p2)
    (hreverse : roms.reverse = roms'.reverse) (halphabet : ∀ b, IsNormal b → alphabetAt roms b = alphabetAt roms' b)
    (i : Instr) (x : List Byte) : instrFields i roms x = instrFields i roms' x := by
  have hcheck : checkDigit roms (payload (normalise x)) = checkDigit roms' (payload (normalise x)) := by
    have hlookup : lookup roms (payload (normalise x)) = lookup roms' (payload (normalise x)) := by
      apply lookup_congr
      intro b hb
      apply halphabet
      rw [normalise_eq_normal] at hb
      exact isNormal_of_mem_normal (List.mem_of_mem_take hb)
    simp only [checkDigit, hlookup, datapath_congr hp1 hp2 hreverse]
  cases i with
  | compute len => simp only [instrFields, computeFields, hcheck]
  | verify len => simp only [instrFields, verifyFields, hcheck]

/-- Settles O22: the normalised identifier holds none of the bytes at which the tables differ. -/
theorem lowerCaseNeverLookedUp : Obligations.LowerCaseNeverLookedUp := by
  intro i s u hraw hp1 hp2 hreverse halphabet
  apply exists_answers_of_instrFields_eq
  rw [rawString_congr fun k _ => congrArg (rawRead · k) hraw]
  exact instrFields_congr hp1 hp2 hreverse (fun b hb => halphabet b hb.1 hb.2) i _

end Sys2Proof.Machine
end

section
/-! The accumulator (42_weighted_accumulator.md R152-R158): its loops are sums, bounded term by term, and any tree of adders
computes them; and the closed forms of the remaps and of the default tables. -/

namespace Sys2Proof.Machine

theorem exists_eq_ofFn {α : Type} {l : List α} {n : Nat} (h : l.length = n) : ∃ f : Fin n → α, l = List.ofFn f := by
  subst h
  exact ⟨l.get, (List.ofFn_get l).symm⟩

/-- Entries of at most M weigh their coefficients at most M times. -/
theorem sum_weighted_le {n M : Nat} {a b x y : Fin n → Nat} (ha : ∀ i, a i ≤ M) (hb : ∀ i, b i ≤ M) :
    ∑ i, (a i * x i + b i * y i) ≤ M * ∑ i, (x i + y i) := by
  rw [Finset.mul_sum]
  apply Finset.sum_le_sum
  intro i _
  rw [Nat.mul_add]
  exact Nat.add_le_add (Nat.mul_le_mul_right _ (ha i)) (Nat.mul_le_mul_right _ (hb i))

/-- The coefficients of n rows, each at most K. -/
theorem sum_coefficients_le {n K : Nat} (x y : Fin n → Fin (K + 1)) : ∑ i, ((x i).val + (y i).val) ≤ n * (2 * K) := by
  have hterm : ∀ i ∈ Finset.univ, (x i).val + (y i).val ≤ 2 * K := fun i _ => by omega
  simpa using Finset.sum_le_card_nsmul _ _ _ hterm

/-! The sums of R152-R155 are largest for the vector (1, 1, 2, 2). -/

theorem c1_le (roms : Roms) (e : Fin 14 → CharVec) :
    Safety.c1 roms e ≤ 1 * ∑ i : Fin 14, (roms.p1[i].k0.val + roms.p1[i].k2.val) :=
  sum_weighted_le (fun i => (e i).m0.is_le) (fun i => (e i).m1.is_le)

theorem c2_le (roms : Roms) (e : Fin 14 → CharVec) :
    Safety.c2 roms e ≤ 1 * ∑ i : Fin 14, (roms.p1[i].k1.val + roms.p1[i].k3.val) :=
  sum_weighted_le (fun i => (e i).m0.is_le) (fun i => (e i).m1.is_le)

theorem c3_le (roms : Roms) (e : Fin 14 → CharVec) :
    Safety.c3 roms e ≤ 2 * ∑ i : Fin 14, (roms.p2[i].k0.val + roms.p2[i].k2.val) :=
  sum_weighted_le (fun i => (e i).m2.is_le) (fun i => (e i).m3.is_le)

theorem c4_le (roms : Roms) (e : Fin 14 → CharVec) :
    Safety.c4 roms e ≤ 2 * ∑ i : Fin 14, (roms.p2[i].k1.val + roms.p2[i].k3.val) :=
  sum_weighted_le (fun i => (e i).m2.is_le) (fun i => (e i).m3.is_le)

/-- Settles O24: 14 positions of two coefficients, each at most 1 in P1 and 2 in P2, weighed at most once in c1, c2 and twice
in c3, c4. -/
theorem accumulatorBounds : Obligations.AccumulatorBounds := by
  intro roms es hlen
  obtain ⟨e, rfl⟩ := exists_eq_ofFn hlen
  rw [accC1_flatten_ofFn, accC2_flatten_ofFn, accC3_flatten_ofFn, accC4_flatten_ofFn]
  exact ⟨(c1_le roms e).trans (Nat.mul_le_mul_left 1 (sum_coefficients_le (roms.p1[·].k0) (roms.p1[·].k2))),
    (c2_le roms e).trans (Nat.mul_le_mul_left 1 (sum_coefficients_le (roms.p1[·].k1) (roms.p1[·].k3))),
    (c3_le roms e).trans (Nat.mul_le_mul_left 2 (sum_coefficients_le (roms.p2[·].k0) (roms.p2[·].k2))),
    (c4_le roms e).trans (Nat.mul_le_mul_left 2 (sum_coefficients_le (roms.p2[·].k1) (roms.p2[·].k3)))⟩

/-- The sums of the default coefficients (R150; log 5). -/
theorem sums_defaultCoefficients :
    ∑ i : Fin 14, (defaultP1[i].k0.val + defaultP1[i].k2.val) = 19 ∧
    ∑ i : Fin 14, (defaultP1[i].k1.val + defaultP1[i].k3.val) = 19 ∧
    ∑ i : Fin 14, (defaultP2[i].k0.val + defaultP2[i].k2.val) = 33 ∧
    ∑ i : Fin 14, (defaultP2[i].k1.val + defaultP2[i].k3.val) = 34 := by decide

theorem accumulators_default_le {es : List CharVec} (hlen : es.length = 14) :
    accC1 defaultRoms (flatten es) ≤ 19 ∧ accC2 defaultRoms (flatten es) ≤ 19 ∧
    accC3 defaultRoms (flatten es) ≤ 66 ∧ accC4 defaultRoms (flatten es) ≤ 68 := by
  obtain ⟨e, rfl⟩ := exists_eq_ofFn hlen
  obtain ⟨h1, h2, h3, h4⟩ := sums_defaultCoefficients
  rw [accC1_flatten_ofFn, accC2_flatten_ofFn, accC3_flatten_ofFn, accC4_flatten_ofFn]
  exact ⟨(c1_le defaultRoms e).trans_eq (congrArg (1 * ·) h1), (c2_le defaultRoms e).trans_eq (congrArg (1 * ·) h2),
    (c3_le defaultRoms e).trans_eq (congrArg (2 * ·) h3), (c4_le defaultRoms e).trans_eq (congrArg (2 * ·) h4)⟩

/-- Settles O23: the loops are sums over any D, the default maxima are those of the coefficients, and the four example payloads
are evaluated. -/
theorem accumulatorSums : Obligations.AccumulatorSums :=
  ⟨fun _ _ => ⟨accumulate_eq_sum _, accumulate_eq_sum _, accumulate_eq_sum _, accumulate_eq_sum _⟩,
    fun _ => accumulators_default_le, by decide, by decide, by decide, by decide⟩

namespace AdderShape

theorem sum_eq (term : Fin 14 → Nat) (shape : AdderShape) : shape.sum term = (shape.positions.map term).sum := by
  induction shape with
  | position i => simp [AdderShape.sum, AdderShape.positions]
  | add l r ihl ihr => simp [AdderShape.sum, AdderShape.positions, ihl, ihr]

theorem residue_eq (m : Nat) (term : Fin 14 → Nat) (shape : AdderShape) : shape.residue m term = shape.sum term % m := by
  induction shape with
  | position i => rfl
  | add l r ihl ihr => rw [AdderShape.residue, AdderShape.sum, ihl, ihr, ← Nat.add_mod]

end AdderShape

/-- Settles O25: a tree's sum is that of its positions' terms, in any order, and its residue is the residue of its sum. -/
theorem adderShapesAgree : Obligations.AdderShapesAgree := by
  intro shape term m hperm
  have hsum : shape.sum term = accumulate term := by
    rw [shape.sum_eq, (hperm.map term).sum_eq, accumulate_eq_sum, Fin.sum_univ_def]
  exact ⟨hsum, by rw [shape.residue_eq, hsum]⟩

/-- Settles O28: the remaps and their closed forms agree at each of the 3 and 5 points (43_modular_adder_tree.md R175). -/
theorem remapClosedForms : Obligations.RemapClosedForms := by
  unfold Obligations.RemapClosedForms
  decide

/-- Settles O30: entry by entry and row by row. -/
theorem defaultTablesClosedForms : Obligations.DefaultTablesClosedForms := by
  unfold Obligations.DefaultTablesClosedForms
  decide

end Sys2Proof.Machine
end

section
/-! The check equation (43_modular_adder_tree.md R181): the check character is the one symbol whose entry balances the four
sums. -/

namespace Sys2Proof.Machine

/-- Under well-formed tables the entry of the datapath's CHK is (q1, q2, r1, r2). -/
theorem exists_entry_of_datapath {roms : Roms} (hw : roms.WellFormed) {d : List Nat} {p : Datapath}
    (h : datapath roms d = .ok p) : ∃ e : CharVec, alphabetAt roms p.chk = some e ∧
      e.m0.val = p.q1 ∧ e.m1.val = p.q2 ∧ e.m2.val = p.r1 ∧ e.m3.val = p.r2 := by
  obtain ⟨q, hq, -, -, -, -, -, -, -, -, -, -, -, -, -, -, -, -, hentry⟩ := adderTreeStages.1 roms d
  rw [Except.ok.inj (h.symm.trans hq)]
  exact (hentry hw).2

/-- Settles O29: the table gives a symbol with CHK's entry, and ALPHABET is one-to-one. -/
theorem packingIsImmaterial : Obligations.PackingIsImmaterial := by
  intro roms pack table hw htable d p hp
  obtain ⟨e, he, h0, h1, h2, h3⟩ := exists_entry_of_datapath hw hp
  exact ⟨e.m0, e.m1, e.m2, e.m3, h0, h1, h2, h3, hw.oneToOne _ _ e (htable e.m0 e.m1 e.m2 e.m3) he⟩

/-- f gives the residue that completes c4 modulo 3 (R172). -/
theorem r1_completes (roms : Roms) (e : Fin 14 → CharVec) :
    Safety.r1 roms e ≤ 2 ∧ (Safety.c4 roms e + Safety.r1 roms e) % 3 = 0 := by
  unfold Safety.r1
  split_ifs <;> omega

/-- g gives the residue that completes c3 + r1 modulo 3 (R173, R174). -/
theorem r2_completes (roms : Roms) (e : Fin 14 → CharVec) :
    Safety.r2 roms e ≤ 2 ∧ (Safety.c3 roms e + Safety.r1 roms e + Safety.r2 roms e) % 3 = 0 := by
  have hr1 := (r1_completes roms e).1
  simp only [Safety.r2]
  split_ifs <;> omega

/-- A vector balances the four sums exactly when it is the one that the residues and remaps give. -/
theorem balanced_iff (roms : Roms) (e : Fin 14 → CharVec) (m : CharVec) : Safety.Balanced roms e m ↔
    m.m0.val = Safety.c1 roms e % 2 ∧ m.m1.val = Safety.c2 roms e % 2 ∧
      m.m2.val = Safety.r1 roms e ∧ m.m3.val = Safety.r2 roms e := by
  have hr1 := r1_completes roms e
  have hr2 := r2_completes roms e
  have h0 := m.m0.isLt
  have h1 := m.m1.isLt
  have h2 := m.m2.isLt
  have h3 := m.m3.isLt
  unfold Safety.Balanced
  omega

theorem balanced_unique {roms : Roms} {e : Fin 14 → CharVec} {m m' : CharVec} (h : Safety.Balanced roms e m)
    (h' : Safety.Balanced roms e m') : m = m' := by
  obtain ⟨h0, h1, h2, h3⟩ := (balanced_iff roms e m).mp h
  obtain ⟨h0', h1', h2', h3'⟩ := (balanced_iff roms e m').mp h'
  exact CharVec.eq_of_entries_eq (Fin.ext (h0.trans h0'.symm)) (Fin.ext (h1.trans h1'.symm)) (Fin.ext (h2.trans h2'.symm))
    (Fin.ext (h3.trans h3'.symm))

/-- The check character has an entry, and it balances the sums. -/
theorem exists_balanced_of_isCheck {roms : Roms} (hw : roms.WellFormed) {e : Fin 14 → CharVec} {c : Byte}
    (hc : Safety.IsCheck roms e c) : ∃ m : CharVec, alphabetAt roms c = some m ∧ Safety.Balanced roms e m := by
  obtain ⟨hlt, rfl⟩ := hc
  obtain ⟨-, m, hm, h0, h1, h2, h3⟩ := reverse_symbol hw ⟨Safety.index roms e, hlt⟩
  have hr1 := (r1_completes roms e).1
  obtain ⟨hq1, hq2, hv1, hv2⟩ := unpack_packV (Safety.r2 roms e) (Nat.mod_lt (Safety.c1 roms e) two_pos)
    (Nat.mod_lt (Safety.c2 roms e) two_pos) (Nat.lt_succ_of_le hr1)
  exact ⟨m, hm, (balanced_iff roms e m).mpr ⟨h0.trans hq1, h1.trans hq2, h2.trans hv1, h3.trans hv2⟩⟩

/-- Of all symbols the check character alone balances the sums. -/
theorem eq_isCheck_iff_balanced {roms : Roms} (hw : roms.WellFormed) {e : Fin 14 → CharVec} {c x : Byte} {m : CharVec}
    (hc : Safety.IsCheck roms e c) (hx : alphabetAt roms x = some m) : x = c ↔ Safety.Balanced roms e m := by
  obtain ⟨mc, hmc, hbalanced⟩ := exists_balanced_of_isCheck hw hc
  constructor
  · rintro rfl
    rwa [Option.some.inj (hx.symm.trans hmc)]
  · intro h
    rw [balanced_unique h hbalanced] at hx
    exact hw.oneToOne x c mc hx hmc

/-- Settles O31: CHK, COMPUTE's character and VERIFY's comparand are the check character. -/
theorem checkEquation : Obligations.CheckEquation := by
  constructor
  · intro roms e p hw hp
    obtain ⟨q, hq, hcheck⟩ := exists_check_datapath roms e
    rw [Except.ok.inj (hp.symm.trans hq)]
    exact exists_balanced_of_isCheck hw hcheck
  · intro s len e hw n hvec
    obtain ⟨-, -, -, hcompute⟩ := computeAnswersCheckCharacter s len
    obtain ⟨-, -, -, hverify⟩ := verifyAnswersMatch s len
    constructor
    · intro hgate
      obtain ⟨c, hc, -, hanswers⟩ := hcompute hgate e hvec
      obtain ⟨m, hm, hbalanced⟩ := exists_balanced_of_isCheck hw hc
      exact ⟨c, m, hanswers, hm, hbalanced⟩
    · intro hgate x m hx hm
      obtain ⟨c, hc, hanswers⟩ := hverify hgate e hvec
      have hmatch : n[14]? = some c ↔ Safety.Balanced s.roms e m := by
        rw [hx, Option.some_inj]
        exact eq_isCheck_iff_balanced hw hc hm
      exact ⟨fun h => by rwa [if_pos (hmatch.mpr h)] at hanswers, fun h => by rwa [if_neg (mt hmatch.mp h)] at hanswers⟩

end Sys2Proof.Machine
end

section
/-! Laws of the check digit on identifiers of alphabet symbols (44_operations.md): round trip and error detection. -/

namespace Sys2Proof.Machine

theorem isAlphabetCode_iff (b : Byte) : isAlphabetCode b = true ↔
    (0x30 ≤ b.toNat ∧ b.toNat ≤ 0x39) ∨ (0x41 ≤ b.toNat ∧ b.toNat ≤ 0x5A) := by
  simp [isAlphabetCode, BitVec.le_def]

theorem isNormal_of_isAlphabetCode {b : Byte} (h : isAlphabetCode b = true) : IsNormal b := by
  rw [isAlphabetCode_iff] at h
  rw [IsNormal, ne_eq, ← BitVec.toNat_inj, BitVec.toNat_ofNat]
  omega

theorem normal_of_symbols {x : List Byte} (h : ∀ b ∈ x, isAlphabetCode b = true) : Safety.normal x = x :=
  normal_of_isNormal fun b hb => isNormal_of_isAlphabetCode (h b hb)

theorem normal_append (x y : List Byte) : Safety.normal (x ++ y) = Safety.normal x ++ Safety.normal y := by
  simp [Safety.normal]

/-- Every symbol has an entry (41_vector_lookup.md R138). -/
theorem exists_entry_of_symbol {roms : Roms} (hw : roms.WellFormed) {b : Byte} (h : isAlphabetCode b = true) :
    ∃ v : CharVec, alphabetAt roms b = some v :=
  Option.isSome_iff_exists.mp ((hw.codes b).trans h)

theorem exists_hasVectors_of_symbols {roms : Roms} (hw : roms.WellFormed) {n : List Byte} (hlen : 14 ≤ n.length)
    (h : ∀ b ∈ n, isAlphabetCode b = true) : ∃ e, Safety.HasVectors roms n e := by
  have hentry : ∀ i : Fin 14, ∃ v, ∃ b, n[i.val]? = some b ∧ alphabetAt roms b = some v := fun i => by
    have hi : i.val < n.length := i.isLt.trans_le hlen
    obtain ⟨v, hv⟩ := exists_entry_of_symbol hw (h _ (List.getElem_mem hi))
    exact ⟨v, _, List.getElem?_eq_getElem hi, hv⟩
  choose e he using hentry
  exact ⟨e, he⟩

/-- A vector is that of its byte. -/
theorem eq_of_hasVectors {roms : Roms} {n n' : List Byte} {e e' : Fin 14 → CharVec} (h : Safety.HasVectors roms n e)
    (h' : Safety.HasVectors roms n' e') {i : Fin 14} (hi : n[i.val]? = n'[i.val]?) : e i = e' i := by
  obtain ⟨b, hb, he⟩ := h i
  obtain ⟨b', hb', he'⟩ := h' i
  obtain rfl : b = b' := Option.some.inj (hb.symm.trans (hi.trans hb'))
  exact Option.some.inj (he.symm.trans he')

theorem isCheck_unique {roms : Roms} {e : Fin 14 → CharVec} {c c' : Byte} (h : Safety.IsCheck roms e c)
    (h' : Safety.IsCheck roms e c') : c = c' := by
  obtain ⟨_, rfl⟩ := h
  obtain ⟨_, rfl⟩ := h'
  rfl

/-- An instruction gives one answer in a state. -/
theorem answers_unique {i : Instr} {s : State} {w w' : Word} (h : Safety.Answers i s w) (h' : Safety.Answers i s w') :
    w = w' := by
  obtain ⟨t, ht, rfl, -⟩ := h
  obtain ⟨t', ht', rfl, -⟩ := h'
  rw [Host.Outcome.next.inj (ht.symm.trans ht')]

/-- The bytes that normalise to a symbol are the symbol and, for a letter, its lower case. -/
theorem eq_upper_iff {c : Byte} (hc : isAlphabetCode c = true) (x : Byte) :
    c = Safety.upper x ↔ x = c ∨ (0x41 ≤ c.toNat ∧ x.toNat = c.toNat + 0x20) := by
  rw [isAlphabetCode_iff] at hc
  rw [← upcase_eq_upper, ← BitVec.toNat_inj, ← BitVec.toNat_inj, toNat_upcase]
  split <;> omega

/-- Settles O32: the payload's symbols are normal, so '-' leaves 14 bytes and any other T is compared by its upper case. -/
theorem roundTrip : Obligations.RoundTrip := by
  intro s p hw hp hsymbols hraw
  have hnormal := normal_of_symbols hsymbols
  obtain ⟨e, hvec⟩ := exists_hasVectors_of_symbols hw hp.ge hsymbols
  obtain ⟨-, -, -, hcompute⟩ := computeAnswersCheckCharacter s 14#8
  rw [hraw, hnormal] at hcompute
  obtain ⟨c, hc, hcode, hanswers⟩ := hcompute (.inl hp) e hvec
  refine ⟨c, hcode hw, hanswers, fun u x hroms hu => ?_⟩
  by_cases hx : x = 0x2D#8
  · have hlen : (Safety.normal (Safety.raw u 15#8)).length ≠ 15 := by
      rw [hu, normal_append, hnormal, hx, List.length_append, hp]
      decide
    have hne : ¬ (x = c ∨ (0x41 ≤ c.toNat ∧ x.toNat = c.toNat + 0x20)) := by
      rw [← eq_upper_iff (hcode hw), hx]
      rintro rfl
      exact absurd (hcode hw) (by decide)
    rw [if_neg hne, if_pos hx]
    exact (verifyAnswersMatch u 15#8).2.1 hlen
  · have hn : Safety.normal (Safety.raw u 15#8) = p ++ [Safety.upper x] := by
      rw [hu, normal_append, hnormal]
      simp [Safety.normal, hx]
    obtain ⟨c', hc', -, hverify, -⟩ := trailingComparedBytewise u 15#8 _ p e (hroms ▸ hw) hp hn (hroms ▸ hvec)
    rw [hroms] at hc'
    rw [isCheck_unique hc' hc] at hverify
    simp only [eq_upper_iff (hcode hw)] at hverify
    rwa [if_neg hx]

/-! Error detection: position i's entry enters the four sums through row i of P1 and P2, and each default row determines it. -/

/-- Two sums that are 0 modulo m with the same remainder z and differ at one position at most agree there. -/
theorem modEq_of_sums_agree {n m z : Nat} {f g : Fin n → Nat} {k : Fin n} (hf : (∑ i, f i + z) % m = 0)
    (hg : (∑ i, g i + z) % m = 0) (h : ∀ i, i ≠ k → f i = g i) : f k ≡ g k [MOD m] := by
  have hrest : ∑ i ∈ Finset.univ.erase k, f i = ∑ i ∈ Finset.univ.erase k, g i :=
    Finset.sum_congr rfl fun i hi => h i (Finset.ne_of_mem_erase hi)
  rw [← Finset.add_sum_erase _ f (Finset.mem_univ k), Nat.add_assoc] at hf
  rw [← Finset.add_sum_erase _ g (Finset.mem_univ k), Nat.add_assoc, ← hrest] at hg
  exact Nat.ModEq.add_right_cancel' _ (hf.trans hg.symm)

/-- Two payloads that one vector balances, and that agree off one position, agree at that position too. -/
theorem eq_of_balanced_of_agree {e e' : Fin 14 → CharVec} {m : CharVec} {k : Fin 14}
    (h : Safety.Balanced defaultRoms e m) (h' : Safety.Balanced defaultRoms e' m) (hagree : ∀ i, i ≠ k → e i = e' i) :
    e k = e' k := by
  obtain ⟨h1, h2, h3, h4⟩ := h
  obtain ⟨h1', h2', h3', h4'⟩ := h'
  obtain ⟨hm0, hm1⟩ := defaultP1_determines k (e k).m0 (e k).m1 (e' k).m0 (e' k).m1
    (modEq_of_sums_agree h1 h1' fun i hi => by rw [hagree i hi]) (modEq_of_sums_agree h2 h2' fun i hi => by rw [hagree i hi])
  obtain ⟨hm2, hm3⟩ := defaultP2_determines k (e k).m2 (e k).m3 (e' k).m2 (e' k).m3
    (modEq_of_sums_agree h3 h3' fun i hi => by rw [hagree i hi]) (modEq_of_sums_agree h4 h4' fun i hi => by rw [hagree i hi])
  exact CharVec.eq_of_entries_eq hm0 hm1 hm2 hm3

/-- Two identifiers that each end in their check character, and that agree off one position, agree there too. -/
theorem eq_of_checked_of_agree {x x' : List Byte} {e e' : Fin 14 → CharVec} {c c' : Byte}
    (he : Safety.HasVectors defaultRoms x e) (he' : Safety.HasVectors defaultRoms x' e')
    (hc : Safety.IsCheck defaultRoms e c) (hc' : Safety.IsCheck defaultRoms e' c')
    (hx : x[14]? = some c) (hx' : x'[14]? = some c') {k : Nat} (hk : k < 15) (hagree : ∀ i, i ≠ k → x[i]? = x'[i]?) :
    x[k]? = x'[k]? := by
  obtain hk | rfl := Nat.lt_succ_iff_lt_or_eq.mp hk
  · obtain rfl : c = c' := Option.some.inj (hx.symm.trans ((hagree 14 (by omega)).trans hx'))
    obtain ⟨m, hm, hbalanced⟩ := exists_balanced_of_isCheck defaultRoms_wellFormed hc
    have hbalanced' := (eq_isCheck_iff_balanced defaultRoms_wellFormed hc' hm).mp rfl
    have hvec : e ⟨k, hk⟩ = e' ⟨k, hk⟩ := eq_of_balanced_of_agree hbalanced hbalanced' fun i hi =>
      eq_of_hasVectors he he' (hagree i fun h => hi (Fin.ext h))
    obtain ⟨b, hb, hv⟩ := he ⟨k, hk⟩
    obtain ⟨b', hb', hv'⟩ := he' ⟨k, hk⟩
    rw [hvec] at hv
    exact hb.trans ((congrArg some (defaultRoms_wellFormed.oneToOne b b' _ hv hv')).trans hb'.symm)
  · have hvec : e = e' := funext fun i => eq_of_hasVectors he he' (hagree i (Nat.ne_of_lt i.isLt))
    rw [hvec] at hc
    rw [hx, hx', isCheck_unique hc hc']

/-- VERIFY of 15 symbols compares the last with the check character of the others. -/
theorem exists_check_of_symbols {s : State} {x : List Byte} (hw : s.roms.WellFormed) (hlen : x.length = 15)
    (hsymbols : ∀ b ∈ x, isAlphabetCode b = true) (hraw : Safety.raw s 15#8 = x) :
    ∃ e c, Safety.HasVectors s.roms x e ∧ Safety.IsCheck s.roms e c ∧
      Safety.Answers (.verify 15#8) s (if x[14]? = some c then 0x0004#16 else 0x0000#16) := by
  obtain ⟨e, he⟩ := exists_hasVectors_of_symbols hw (by omega) hsymbols
  obtain ⟨-, -, -, hverify⟩ := verifyAnswersMatch s 15#8
  rw [hraw, normal_of_symbols hsymbols] at hverify
  obtain ⟨c, hc, hanswers⟩ := hverify hlen e he
  exact ⟨e, c, he, hc, hanswers⟩

/-- Settles O33: were both identifiers to end in their check characters, the changed position would hold the same symbol. -/
theorem singleSubstitutionDetected : Obligations.SingleSubstitutionDetected := by
  intro s u x k y hs hu hlen hsymbols hy hne hraw hraw' hanswer
  have hk : k.val < x.length := by rw [hlen]; exact k.isLt
  have hsymbols' : ∀ b ∈ x.set k.val y, isAlphabetCode b = true := fun b hb =>
    (List.mem_or_eq_of_mem_set hb).elim (hsymbols b) fun h => h ▸ hy
  obtain ⟨e, c, he, hc, hanswers⟩ := exists_check_of_symbols (hs ▸ defaultRoms_wellFormed) hlen hsymbols hraw
  obtain ⟨e', c', he', hc', hanswers'⟩ :=
    exists_check_of_symbols (hu ▸ defaultRoms_wellFormed) (List.length_set.trans hlen) hsymbols' hraw'
  rw [hs] at he hc
  rw [hu] at he' hc'
  have hx : x[14]? = some c := by
    by_contra h
    rw [if_neg h] at hanswers
    exact absurd (answers_unique hanswer hanswers) (by decide)
  have hx' : (x.set k.val y)[14]? ≠ some c' := by
    intro h
    have heq := eq_of_checked_of_agree he he' hc hc' hx h k.isLt fun i hi => (List.getElem?_set_ne hi.symm).symm
    rw [List.getElem?_set_self hk] at heq
    exact hne heq
  rwa [if_neg hx'] at hanswers'

end Sys2Proof.Machine
end

section
/-! Transactions (70_reset_and_hazards.md R263, R267): the block that a host's writes present, its answer, and several
blocks side by side. -/

namespace Sys2Proof.Machine

/-- The block after the host wrote an instruction's bytes to RAW and its word to CMD. -/
def presentRequest (i : Instr) (bytes : List Byte) (s : State) : State :=
  hostWriteCmd (encodeCmd i) (setRawFrom 0 bytes s)

@[simp] theorem presentRequest_roms (i : Instr) (bytes : List Byte) (s : State) : (presentRequest i bytes s).roms = s.roms :=
  setRawFrom_roms 0 bytes s

/-- LEN counts no more bytes than RAW has (30_encoding.md R89). -/
theorem length_le_rawMax {i : Instr} {bytes : List Byte} (hlen : bytes.length = i.len.toNat) : bytes.length ≤ rawMax :=
  hlen.trans_le (Nat.le_of_lt_succ i.len.isLt)

theorem rawString_presentRequest {i : Instr} {bytes : List Byte} {s : State} (hw : Memory.wf s.raw = true)
    (hlen : bytes.length = i.len.toNat) : rawString (presentRequest i bytes s) i.len = bytes := by
  have hmax : 0 + bytes.length ≤ rawMax := (Nat.zero_add _).le.trans (length_le_rawMax hlen)
  apply List.ext_getElem
  · rw [length_rawString, hlen]
  · intro k _ hk
    have hread : rawRead (presentRequest i bytes s).raw k = (bytes[k]?).getD (rawRead s.raw k) := by
      rw [presentRequest, hostWriteCmd_raw, rawRead_setRawFrom hw hmax, if_pos (Nat.zero_le k), Nat.sub_zero]
    simp [rawString, hread, List.getElem?_eq_getElem hk]

/-- The request is well-formed: its word decodes, and its bytes are written for it (30_encoding.md R85). -/
theorem fetchRequest_presentRequest {i : Instr} {bytes : List Byte} (s : State) (hlen : bytes.length = i.len.toNat) :
    fetchRequest (presentRequest i bytes s) = .ok i := by
  rw [fetchRequest_ok, allWritten_iff]
  refine ⟨decodeCmd_encodeCmd i, fun k hk => ?_⟩
  have hwritten : 0 ≤ k.val ∧ k.val < 0 + bytes.length := by omega
  rw [presentRequest, hostWriteCmd_rawWritten, setRawFrom_rawWritten, decide_eq_true hwritten, Bool.true_or]

/-- A transaction reads the response that the presented request is answered with, and records nothing. -/
theorem moves_transaction (r : Run) {i : Instr} {bytes : List Byte} (hlen : bytes.length = i.len.toNat) :
    ∃ f : RespFields, exec i (presentRequest i bytes r.machine) = .next (respond f (presentRequest i bytes r.machine)) ∧
      r.moves (transaction (encodeCmd i) bytes) = { r with
        machine := respond f (presentRequest i bytes r.machine), observed := r.observed ++ [encodeResp f] } := by
  obtain ⟨f, hexec, -⟩ := exec_responds i (presentRequest i bytes r.machine)
  refine ⟨f, hexec, ?_⟩
  have hraw : r.move (.writeRaw bytes) = { r with machine := setRawFrom 0 bytes r.machine } := by
    obtain ⟨-, h⟩ | ⟨hgt, -⟩ := writeRaw_cases bytes r
    · exact h
    · exact absurd (length_le_rawMax hlen) (Nat.not_le_of_lt hgt)
  have hcmd : (r.move (.writeRaw bytes)).move (.writeCmd (encodeCmd i)) =
      { r with machine := presentRequest i bytes r.machine } := by
    rw [hraw]
    rfl
  have hstep := (step_of_fetchRequest_ok (fetchRequest_presentRequest r.machine hlen)).trans hexec
  have hread : hostReadResp (respond f (presentRequest i bytes r.machine)) = .ok (encodeResp f) := by
    rw [hostReadResp_of_valid (respond_respValid f _), respond_resp, hardwireRsvd_eq_self (respRsvd_encodeResp f)]
  simp only [transaction, moves_cons, moves_nil, hcmd]
  rw [move_issue_of_next hstep, move_readResp_of_ok hread]

/-- Settles O43: the word read is the answer to the presented request, which is a function of the tables and the bytes. -/
theorem transactionReadsItsResponse : Obligations.TransactionReadsItsResponse := by
  intro r i bytes hw hlen
  obtain ⟨f, hexec, hmoves⟩ := moves_transaction r hlen
  rw [hmoves]
  refine ⟨encodeResp f, rfl, rfl, rfl, fun u hroms hu => ?_⟩
  have hfields : instrFields i (presentRequest i bytes r.machine).roms (rawString (presentRequest i bytes r.machine) i.len) =
      instrFields i u.roms (rawString u i.len) := by
    rw [presentRequest_roms, hroms, rawString_presentRequest hw hlen, rawString_eq_raw, hu]
  obtain ⟨w, hw', hanswers⟩ := exists_answers_of_instrFields_eq hfields
  rwa [answers_unique (answers_of_exec_eq_respond hexec) hw']

/-- Each block's run is that of its own moves (60_exceptions.md R230). -/
theorem movesInstances_getElem? {runs : List Run} {j : Nat} {r : Run} (hr : runs[j]? = some r) (kms : List (Nat × HostMove)) :
    (movesInstances kms runs)[j]? = some (r.moves ((kms.filter fun km => km.1 == j).map Prod.snd)) := by
  induction kms generalizing runs r with
  | nil => exact hr
  | cons km kms ih =>
    obtain ⟨k, m⟩ := km
    rw [movesInstances_cons]
    by_cases hk : k = j
    · have hmoved : (moveInstance k m runs)[j]? = some (r.move m) := by
        rw [moveInstance, hk, List.getElem?_modify_eq, hr]
        rfl
      simpa [hk] using ih hmoved
    · have hkept : (moveInstance k m runs)[j]? = some r := by
        rw [moveInstance, List.getElem?_modify_ne _ _ hk, hr]
      simpa [hk] using ih hkept

/-- Settles O46: each block makes its own moves, and a transaction among them reads its own response. -/
theorem instancesAreIndependent : Obligations.InstancesAreIndependent := by
  intro runs kms j r hr
  refine ⟨_, movesInstances_getElem? hr kms, rfl, fun i bytes hw hlen hmoves => ?_⟩
  rw [hmoves]
  exact transactionReadsItsResponse r i bytes hw hlen

end Sys2Proof.Machine
end

section
/-! Requests as texts (30_encoding.md R90): what `literalChars` writes for a byte is read back as that byte. -/

namespace Sys2Proof.Machine

theorem toNat_ofNat_byte (b : Byte) : (Char.ofNat b.toNat).toNat = b.toNat := by
  have hvalid : b.toNat.isValidChar := .inl (b.isLt.trans (by decide))
  rw [Char.ofNat, dif_pos hvalid]
  rfl

theorem hexDigit_hexChar (n : Fin 16) : hexDigit (hexChar n.val) = some n.val := by
  revert n
  decide

theorem plainCode_iff (n : Nat) : plainCode n = true ↔ 0x20 ≤ n ∧ n ≤ 0x7E ∧ n ≠ 0x22 ∧ n ≠ 0x5C := by
  simp [plainCode, and_assoc]

theorem pushByte_some (b : Byte) (bs : List Byte) (cs : List Char) :
    pushByte b.toNat (some (bs, cs)) = some (b :: bs, cs) := by
  rw [pushByte, BitVec.ofNat_toNat, BitVec.setWidth_eq]

/-! One step of the reader at each place of a literal. -/

theorem literalBytes_plain {c : Char} (h : plainCode c.toNat = true) (cs : List Char) :
    literalBytes .plain (c :: cs) = pushByte c.toNat (literalBytes .plain cs) := by
  obtain ⟨-, -, hquote, hslash⟩ := (plainCode_iff _).mp h
  rw [literalBytes, if_neg hquote, if_neg hslash, if_pos h]

theorem literalBytes_quote (cs : List Char) : literalBytes .plain (Char.ofNat 0x22 :: cs) = some ([], cs) := rfl

theorem literalBytes_backslash (cs : List Char) :
    literalBytes .plain (Char.ofNat 0x5C :: cs) = literalBytes .escaped cs := rfl

theorem literalBytes_escaped {c : Char} (h : c.toNat = 0x22 ∨ c.toNat = 0x5C) (cs : List Char) :
    literalBytes .escaped (c :: cs) = pushByte c.toNat (literalBytes .plain cs) := by
  rw [literalBytes, if_pos h]

theorem literalBytes_hex (high low : Fin 16) (cs : List Char) :
    literalBytes .escaped ('x' :: hexChar high.val :: hexChar low.val :: cs) =
      pushByte (16 * high.val + low.val) (literalBytes .plain cs) := by
  have hx : literalBytes .escaped ('x' :: hexChar high.val :: hexChar low.val :: cs) =
      literalBytes .hexHigh (hexChar high.val :: hexChar low.val :: cs) := rfl
  rw [hx]
  simp only [literalBytes, hexDigit_hexChar]

/-- A byte is written plain, escaped or as two hex digits, and read back from each. -/
theorem literalBytes_literalChars (b : Byte) (cs : List Char) :
    literalBytes .plain (literalChars b ++ cs) = pushByte b.toNat (literalBytes .plain cs) := by
  have hchar := toNat_ofNat_byte b
  rw [literalChars]
  split_ifs with hplain hescape
  · rw [List.singleton_append, literalBytes_plain (hchar.symm ▸ hplain), hchar]
  · rw [List.cons_append, literalBytes_backslash, List.singleton_append, literalBytes_escaped (hchar.symm ▸ hescape), hchar]
  · have hb := b.isLt
    have hhex := literalBytes_hex ⟨b.toNat / 16, by omega⟩ ⟨b.toNat % 16, by omega⟩ cs
    rw [Nat.div_add_mod] at hhex
    exact (literalBytes_backslash _).trans hhex

/-- A whole literal, up to its closing quote. -/
theorem literalBytes_flatMap (bytes : List Byte) (cs : List Char) :
    literalBytes .plain (bytes.flatMap literalChars ++ Char.ofNat 0x22 :: cs) = some (bytes, cs) := by
  induction bytes with
  | nil => exact literalBytes_quote cs
  | cons b bytes ih => rw [List.flatMap_cons, List.append_assoc, literalBytes_literalChars, ih, pushByte_some]

/-- The operand after the mnemonic: nothing but the literal stands on the line. -/
theorem operand_literal (verify : Bool) {bytes : List Byte} (h : bytes.length ≤ 255) :
    operand verify (Char.ofNat 0x22 :: (bytes.flatMap literalChars ++ [Char.ofNat 0x22])) = some ⟨verify, bytes⟩ := by
  have hquote : (Char.ofNat 0x22).toNat = 0x22 := rfl
  simp [operand, skipSpaces, hquote, literalBytes_flatMap, lineEnds, h]

/-- Settles O7: the mnemonic selects the operation, and its operand is the literal of the bytes. -/
theorem assembleRequestText : Obligations.AssembleRequestText := by
  rintro ⟨verify, bytes⟩ h
  cases verify with
  | false => exact operand_literal false h
  | true => exact operand_literal true h

end Sys2Proof.Machine
end
